-- ==== Sys2Proof/Config.lean ====
section
/-! DEFINITION. The implementation parameters of spec/00_scope.md rule R5, each under its own name, and the two
values the spec leaves open: the bars of `drawLines2` (LINES2_MASK of R5; R107, D16) and a bus address that nothing
has written (R16, R163, U1). The word types of Sys2Proof/Word.lean have these widths. -/

namespace Sys2Proof.Config

/-- NCELLS, cells in the segment buffer (R5). -/
@[simp] abbrev nCells : Nat := 8

/-- CELLW, bits per cell (R5). -/
@[simp] abbrev cellW : Nat := 16

/-- NDIGITS, logical digit positions (R5). -/
@[simp] abbrev nDigits : Nat := 4

/-- COLON_CELL, the raw index of the colon cell (R5, R11). -/
abbrev colonCell : Fin nCells := 2

/-- MASKW, meaningful bits of a segment bitmask (R5). -/
@[simp] abbrev maskW : Nat := 8

/-- OPW, the width of the small unsigned operands pos, value, rate, level, base, first, last, address (R5, D5). -/
@[simp] abbrev opW : Nat := 8

/-- NUMW, the width of the signed `number` operand, two's complement (R5, D6). -/
@[simp] abbrev numW : Nat := 32

/-- ADDRW, the width of the stored bus address (R5, D7). -/
@[simp] abbrev addrW : Nat := 8

/-- REQW, the width of the packed request word (R5, D2). -/
@[simp] abbrev reqW : Nat := 64

/-- The largest value with an entry in the segment table (R18, R96: `value <= 15`). -/
def valueMax : BitVec opW := 15

/-- BLINK_MAX, the largest blink-rate code (R5, R75). -/
def blinkMax : BitVec opW := 3

/-- BRIGHT_MAX, the largest brightness level (R5, R76). -/
def brightMax : BitVec opW := 15

/-- BASE_MIN, the smallest accepted number base (R5, R122). -/
def baseMin : BitVec opW := 2

/-- BASE_MAX, the largest accepted number base (R5, R122). -/
def baseMax : BitVec opW := 16

/-- TIME_MAX, the largest accepted `printTime` argument (R5, R123). -/
def timeMax : BitVec opW := 99

/-- Which two of the three bars `drawLines2` draws: the three candidates of R107 and D16. -/
inductive Lines2Bars where
  | topBottom
  | topMiddle
  | middleBottom
  deriving DecidableEq, Repr, Inhabited

/-- The OPEN parameter behind LINES2_MASK (R5, R107, D16; log entry 6): no proof can see which of the three
candidates it is. -/
opaque lines2Bars : Lines2Bars

/-- The free draws of 8 bits that stand for the value of `ADDR` while `ADDR_VALID = 0` (R16, R163, U1; log
entry 5): one value for each draw, and no proof can see any of them. -/
opaque unwrittenAddr : Nat → BitVec addrW

end Sys2Proof.Config
end

