-- ==== Sys2Proof/Word.lean ====
section
/-! DEFINITION. The word types of the SevenSegment core, at the widths that spec/00_scope.md rule R5 names as
parameters (Sys2Proof/Config.lean), and the byte the bus carries (spec/20_memory.md R30). -/

namespace Sys2Proof

/-- A byte: the operand of `Write(b)` on the bus (R30), one byte of display RAM (R32), the field `op` (R51). -/
abbrev Byte := BitVec 8

/-- One cell of the segment buffer (R5: CELLW; R11). -/
abbrev Cell := BitVec Config.cellW

/-- A segment bitmask (R5: MASKW; R12). -/
abbrev Mask := BitVec Config.maskW

/-- A small unsigned operand of a request (R5: OPW; R53). -/
abbrev Operand := BitVec Config.opW

/-- The bus address of the chip (R5: ADDRW; R16). -/
abbrev BusAddr := BitVec Config.addrW

/-- The signed `number` operand of `printNumber`, two's complement (R5: NUMW). -/
abbrev Num32 := BitVec Config.numW

/-- A packed request word (R5: REQW; R51). -/
abbrev Req64 := BitVec Config.reqW

end Sys2Proof
end

