-- ==== Sys2Proof/Syntax.lean ====
section
/-! DEFINITION. The 24 operations a host can request, with their operands in the source's order and at the
widths of spec/30_encoding.md rule R50: the rows of spec/opcode_table.json, in its order. -/

namespace Sys2Proof

/-- One operation request (R50). Every operand value is legal as an operand: an operation clamps, ignores or
rejects its own operands (R53, R141, R142). -/
inductive Instr where
  /-- The operation the table calls `initialize`, op 0x00 (R73; log entry 13 for the constructor's name). -/
  | initializeBlock (address : Operand)
  /-- op 0x01 (R74). -/
  | setDisplayStatus (on : Bool)
  /-- op 0x02 (R75). -/
  | setBlinkRate (rate : Operand)
  /-- op 0x03 (R76). -/
  | setBrightness (level : Operand)
  /-- op 0x04 (R77). -/
  | clearDisplay
  /-- op 0x10 (R92). -/
  | writeDisplay
  /-- op 0x11 (R93). -/
  | writeColon
  /-- op 0x12 (R94). -/
  | drawColon (status : Bool)
  /-- op 0x13 (R95). -/
  | toggleColon
  /-- op 0x14 (R96). -/
  | drawDigit (pos : Operand) (value : Operand) (dot : Bool)
  /-- op 0x15 (R97). -/
  | clearDigit (pos : Operand)
  /-- op 0x16 (R98). -/
  | clearDigits
  /-- op 0x17 (R99). -/
  | drawDot (pos : Operand) (dot : Bool)
  /-- op 0x18 (R100). -/
  | toggleDot (pos : Operand)
  /-- op 0x19 (R101). -/
  | drawHyphen (pos : Operand)
  /-- op 0x1A (R102). -/
  | drawOver (pos : Operand)
  /-- op 0x1B (R103). -/
  | drawUnder (pos : Operand)
  /-- op 0x1C (R104). -/
  | drawLineUpper
  /-- op 0x1D (R105). -/
  | drawLineMiddle
  /-- op 0x1E (R106). -/
  | drawLineLower
  /-- op 0x1F (R107). -/
  | drawLines2
  /-- op 0x20 (R108). -/
  | drawLines3
  /-- op 0x21 (R122); `number` is read as signed two's complement. -/
  | printNumber (number : Num32) (base : Operand) (padding : Bool)
  /-- op 0x22 (R123). -/
  | printTime (first : Operand) (last : Operand)
  deriving DecidableEq, Repr

end Sys2Proof
end

