-- ==== Sys2Proof/Decode.lean ====
section
/-! DEFINITION. The packed request word REQ64 (spec/30_encoding.md R51), its decoder, total on every 64-bit word
and rejecting an unassigned `op` by name (R52, R53, R55), and the encoder, which writes 0 into every field the
operation does not use and into `rsv` (R60). -/

namespace Sys2Proof

/-- The field `op`, bits 63:56 (R51). -/
def Request.op (w : Req64) : Byte := w.extractLsb' 56 8

/-- The field `a`, bits 55:48 (R51). -/
def Request.a (w : Req64) : Operand := w.extractLsb' 48 8

/-- The field `b`, bits 47:40 (R51). -/
def Request.b (w : Req64) : Operand := w.extractLsb' 40 8

/-- The field `rsv`, bits 39:33 (R51). -/
def Request.rsv (w : Req64) : BitVec 7 := w.extractLsb' 33 7

/-- The field `f`, bit 32 (R51). -/
def Request.f (w : Req64) : Bool := w.getLsbD 32

/-- The field `n`, bits 31:0 (R51). -/
def Request.n (w : Req64) : Num32 := w.extractLsb' 0 32

/-- `REQ64 = {op, a, b, rsv, f, n}` (R51), with the more significant field first. -/
def Request.pack (op : Byte) (a b : Operand) (rsv : BitVec 7) (f : Bool) (n : Num32) : Req64 :=
  (op ++ (a ++ (b ++ (rsv ++ (BitVec.ofBool f ++ n)))) : BitVec (8 + (8 + (8 + (7 + (1 + 32))))))

/-- Why a word is no request for an operation. -/
inductive DecodeError where
  /-- The `op` value is unassigned: 0x05 to 0x0F or 0x23 to 0xFF (R55, the label REJ_OP of R141). -/
  | unassignedOp (op : Byte)
  deriving DecidableEq, Repr

/-- The operation a request word selects, by `op` alone, each operand its field as it stands (R52, R53). -/
def decodeRequest (w : Req64) : Except DecodeError Instr :=
  match Request.op w with
  | 0x00#8 => .ok (.initializeBlock (Request.a w))
  | 0x01#8 => .ok (.setDisplayStatus (Request.f w))
  | 0x02#8 => .ok (.setBlinkRate (Request.a w))
  | 0x03#8 => .ok (.setBrightness (Request.a w))
  | 0x04#8 => .ok .clearDisplay
  | 0x10#8 => .ok .writeDisplay
  | 0x11#8 => .ok .writeColon
  | 0x12#8 => .ok (.drawColon (Request.f w))
  | 0x13#8 => .ok .toggleColon
  | 0x14#8 => .ok (.drawDigit (Request.a w) (Request.b w) (Request.f w))
  | 0x15#8 => .ok (.clearDigit (Request.a w))
  | 0x16#8 => .ok .clearDigits
  | 0x17#8 => .ok (.drawDot (Request.a w) (Request.f w))
  | 0x18#8 => .ok (.toggleDot (Request.a w))
  | 0x19#8 => .ok (.drawHyphen (Request.a w))
  | 0x1A#8 => .ok (.drawOver (Request.a w))
  | 0x1B#8 => .ok (.drawUnder (Request.a w))
  | 0x1C#8 => .ok .drawLineUpper
  | 0x1D#8 => .ok .drawLineMiddle
  | 0x1E#8 => .ok .drawLineLower
  | 0x1F#8 => .ok .drawLines2
  | 0x20#8 => .ok .drawLines3
  | 0x21#8 => .ok (.printNumber (Request.n w) (Request.a w) (Request.f w))
  | 0x22#8 => .ok (.printTime (Request.a w) (Request.b w))
  | op => .error (.unassignedOp op)

/-- The request word of an operation, every unused field 0 (R52, R60). -/
def encode : Instr → Req64
  | .initializeBlock address => Request.pack 0x00 address 0 0 false 0
  | .setDisplayStatus on => Request.pack 0x01 0 0 0 on 0
  | .setBlinkRate rate => Request.pack 0x02 rate 0 0 false 0
  | .setBrightness level => Request.pack 0x03 level 0 0 false 0
  | .clearDisplay => Request.pack 0x04 0 0 0 false 0
  | .writeDisplay => Request.pack 0x10 0 0 0 false 0
  | .writeColon => Request.pack 0x11 0 0 0 false 0
  | .drawColon status => Request.pack 0x12 0 0 0 status 0
  | .toggleColon => Request.pack 0x13 0 0 0 false 0
  | .drawDigit pos value dot => Request.pack 0x14 pos value 0 dot 0
  | .clearDigit pos => Request.pack 0x15 pos 0 0 false 0
  | .clearDigits => Request.pack 0x16 0 0 0 false 0
  | .drawDot pos dot => Request.pack 0x17 pos 0 0 dot 0
  | .toggleDot pos => Request.pack 0x18 pos 0 0 false 0
  | .drawHyphen pos => Request.pack 0x19 pos 0 0 false 0
  | .drawOver pos => Request.pack 0x1A pos 0 0 false 0
  | .drawUnder pos => Request.pack 0x1B pos 0 0 false 0
  | .drawLineUpper => Request.pack 0x1C 0 0 0 false 0
  | .drawLineMiddle => Request.pack 0x1D 0 0 0 false 0
  | .drawLineLower => Request.pack 0x1E 0 0 0 false 0
  | .drawLines2 => Request.pack 0x1F 0 0 0 false 0
  | .drawLines3 => Request.pack 0x20 0 0 0 false 0
  | .printNumber number base padding => Request.pack 0x21 base 0 0 padding number
  | .printTime first last => Request.pack 0x22 first last 0 false 0

/-- The request word behind the low `nbits` bits of a number, the bits above them 0. There is one request
length, 64 bits (R62), so a request word is the number itself: no byte order enters (R34, R41). -/
def wordOfBits (nbits w : Nat) : Req64 := BitVec.ofNat Config.reqW (w % 2 ^ nbits)

/-- What the decoder reads from a table row's word. A word of more than 64 bits is no request (R62). -/
def decodeTableWord (nbits w : Nat) : Option Instr :=
  if nbits ≤ Config.reqW then (decodeRequest (wordOfBits nbits w)).toOption else none

end Sys2Proof
end

