-- ==== Sys2Proof/Machine/Operands.lean ====
section
/-! DEFINITION. Operand forms: the position guard and map (spec/20_memory.md R40, spec/41_formatter_draw.md R90),
the constant tables (spec/10_state.md R18, R19), the clamps (R75, R76), the output bytes (spec/30_encoding.md R57
to R59) and the integer arithmetic of `printNumber` and `printTime` (spec/42_formatter_print.md R121). -/

namespace Sys2Proof.Machine

/-- `SEG`, the segment encoding table, in the source's order (R18). -/
def segTable : List Mask :=
  [0x3F, 0x06, 0x5B, 0x4F, 0x66, 0x6D, 0x7D, 0x07, 0x7F, 0x6F, 0x77, 0x7C, 0x39, 0x5E, 0x79, 0x71]

/-- `EMPTY` (R19). -/
def maskEmpty : Mask := 0x00

/-- `HYPHEN`, the middle bar (R19). -/
def maskHyphen : Mask := 0x40

/-- `TOP`, the top bar (R19). -/
def maskTop : Mask := 0x01

/-- `BOTTOM`, the bottom bar (R19). -/
def maskBottom : Mask := 0x08

/-- `DOT`, the decimal point (R19). -/
def maskDot : Mask := 0x80

/-- `COLON_LIT` (R19). -/
def maskColonLit : Mask := 0x02

/-- `LINES3`, the OR of the three bars (R19, R108). -/
def maskLines3 : Mask := maskTop ||| maskHyphen ||| maskBottom

/-- The OR of the two bars of a choice (R107). -/
def lines2MaskOf : Config.Lines2Bars → Mask
  | .topBottom => maskTop ||| maskBottom
  | .topMiddle => maskTop ||| maskHyphen
  | .middleBottom => maskHyphen ||| maskBottom

/-- `LINES2_MASK`, OPEN among the three candidates (R5, R107, D16; log entry 6). -/
def maskLines2 : Mask := lines2MaskOf Config.lines2Bars

/-- `zext_16` of a segment bitmask: what a whole-cell write stores (R91, D8). -/
def cellOfMask (m : Mask) : Cell := m.setWidth Config.cellW

/-- The low byte of a cell, `c[7:0]` (R34). -/
def cellLow (c : Cell) : Byte := c.extractLsb' 0 8

/-- The high byte of a cell, `c[15:8]` (R34). -/
def cellHigh (c : Cell) : Byte := c.extractLsb' 8 8

/-- The position guard: a `pos` operand acts only when `pos <= 3` (R90). -/
def guardPos (pos : Operand) : Option (Fin Config.nDigits) :=
  if h : pos.toNat < Config.nDigits then some ⟨pos.toNat, h⟩ else none

/-- `raw(pos)`: the raw buffer index of a logical position, the colon cell skipped (R40). -/
def rawIndex (p : Fin Config.nDigits) : Fin Config.nCells :=
  if p.val < 2 then ⟨p.val, Nat.lt_trans p.isLt (by decide)⟩
  else ⟨p.val + 1, Nat.lt_of_le_of_lt p.isLt (by decide)⟩

/-- The cell a `pos` operand acts on, if it acts at all (R40, R90). -/
def posCell (pos : Operand) : Option (Fin Config.nCells) := (guardPos pos).map rawIndex

/-- The pattern `drawDigit` writes: `SEG[value]`, empty above 15, with the dot ORed in (R96). -/
def digitMask (value : Operand) (dot : Bool) : Mask :=
  let m := if value ≤ Config.valueMax then segTable.getD value.toNat maskEmpty else maskEmpty
  if dot then m ||| maskDot else m

/-- The clamp of `setBlinkRate`: above 3 becomes 0 (R75). -/
def clampRate (rate : Operand) : BitVec 2 :=
  if rate > Config.blinkMax then 0 else rate.extractLsb' 0 2

/-- The clamp of `setBrightness`: above 15 becomes 15 (R76). -/
def clampLevel (level : Operand) : BitVec 4 :=
  (if level > Config.brightMax then Config.brightMax else level).extractLsb' 0 4

/-- The command byte "oscillator on" (R56). -/
def cmdOscillatorOn : Byte := 0x21

/-- `DSETUP(on, blink)`, the display-setup byte (R57). -/
def dsetup (on : Bool) (blink : BitVec 2) : Byte :=
  0x80#8 ||| (BitVec.ofBool on).setWidth 8 ||| (blink.setWidth 8 <<< 1)

/-- `BRIGHTCMD(level)`, the brightness byte (R58). -/
def brightCmd (level : BitVec 4) : Byte := 0xE0#8 ||| level.setWidth 8

/-- `ROWADDR(i)`, the row address byte (R59). -/
def rowAddr (i : Fin Config.nCells) : Byte := BitVec.ofNat 8 i.val <<< 1

/-- The sign test `number < 0`: bit 31 of `n` (R121 item 2). -/
def isNegative (number : Num32) : Bool := number.msb

/-- The magnitude of `number`, an unsigned 32-bit value: `~n + 1` when negative, so 2^31 for -2^31 (R121 item 3,
D14). -/
def magnitude (number : Num32) : Num32 := if isNegative number then ~~~number + 1 else number

/-- The base test of `printNumber`: `base < 2 or base > 16` rejects (R122 step 2). -/
def baseAccepted (base : Operand) : Bool := decide (Config.baseMin ≤ base) && decide (base ≤ Config.baseMax)

/-- The range test of `printTime`: `first > 99 or last > 99` rejects (R123). -/
def timeAccepted (first last : Operand) : Bool :=
  decide (first ≤ Config.timeMax) && decide (last ≤ Config.timeMax)

/-- `x div 10` (R121 item 5). -/
def tens (x : Operand) : Operand := x / 10

/-- `x mod 10` (R121 item 5). -/
def units (x : Operand) : Operand := x % 10

end Sys2Proof.Machine
end

