-- ==== Sys2Proof/Machine/State.lean ====
section
/-! DEFINITION. The state of the SevenSegment core (spec/10_state.md R10, R24), its bus events (spec/20_memory.md
R30), what the host presents, and the state after reset. Fields the spec does not name are the model's own and
say so. -/

namespace Sys2Proof.Machine

/-- A bus event: the block's output to the transport (R30). -/
inductive BusEvent where
  /-- `Open`: the one-time opening of the bus. -/
  | openBus
  /-- `Begin(a)`: `beginTransaction(address)`. -/
  | beginTx (address : BusAddr)
  /-- `Write(b)`: `writeByte(b)`. -/
  | writeByte (b : Byte)
  /-- `End`: `endTransaction()`. -/
  | endTx
  deriving DecidableEq, Repr

/-- What the host can do to the block between two operations: present a request (R41, R50) or reset it (R160). -/
inductive HostInput where
  | request (word : Req64)
  | reset
  deriving DecidableEq, Repr

/-- The state. `buf` to `trace` are the spec's (R10); `responses`, `inputs` and `draws` are the model's own (log
entries 3, 1 and 5). -/
structure State where
  /-- `BUF[0..7]`, the segment buffer (R11). -/
  buf : Vector Cell Config.nCells
  /-- `DISP_ON`, the stored display on/off flag (R13). -/
  dispOn : Bool
  /-- `BLINK`, the stored blink-rate code (R14). -/
  blink : BitVec 2
  /-- `BRIGHT`, the stored brightness level, a write-only shadow (R15). -/
  bright : BitVec 4
  /-- `ADDR`, the stored bus address; read only through `State.busAddr` (R16). -/
  addr : BusAddr
  /-- `ADDR_VALID`: `initialize` has written `ADDR` (R16). -/
  addrValid : Bool
  /-- `T`, the bus trace, oldest event first (R17). -/
  trace : List BusEvent
  /-- The model's own: the result bits `ok` given so far, oldest first (R54). -/
  responses : List Bool
  /-- The model's own, the host's side: what the host will still present, in order (R22). -/
  inputs : List HostInput
  /-- The model's own: how many free draws have stood for an unwritten `ADDR` (R163, U1). -/
  draws : Nat
  deriving DecidableEq, Repr

/-- Why the machine stops with a fault: never. "Nothing in this layer is fatal" (R145): the type has no
constructor, which is exact. -/
inductive Fault where
  deriving DecidableEq, Repr

/-- Why an instruction has no meaning in the model. -/
inductive Refusal where
  /-- Raised by an arm of `exec` whose instruction has no meaning yet; no arm does. Safe. -/
  | notModelled (mnemonic : String)
  deriving DecidableEq, Repr

/-- The state after reset (R24, R161). `addr` is unspecified in the spec: 0x00 stands in the stored field (log
entry 4, DESIGN CHOICE), and no operation reads it while `addrValid` is false. The model's own fields start
empty (log entries 1, 3, 5). -/
def State.reset : State where
  buf := Vector.replicate Config.nCells 0x0000
  dispOn := false
  blink := 0
  bright := 0
  addr := 0x00
  addrValid := false
  trace := []
  responses := []
  inputs := []
  draws := 0

end Sys2Proof.Machine
end

