-- ==== Sys2Proof/Machine/Flags.lean ====
section
/-! DEFINITION. The only status the block produces: the result bit `ok` (spec/10_state.md R21, spec/30_encoding.md
R54), and the reject causes as the spec labels them (spec/60_exceptions.md R141). The block has no flag or
condition code. -/

namespace Sys2Proof.Machine

/-- `return ok=b`: the operation ends with the result bit (R7, R54). The bit is output, not state of the block;
the model keeps the history of it (log entry 3). -/
def State.respond (ok : Bool) (s : State) : State := { s with responses := s.responses ++ [ok] }

/-- A reject: `ok = 0` and nothing else (R140). The writes made before it stay. -/
def State.reject (s : State) : State := s.respond false

/-- The labels of R141. They are documentation: no operation reads one and the block has no cause code. -/
inductive RejectCause where
  | base
  | overflowPositive
  | overflowNegative
  | time
  | unassignedOp
  deriving DecidableEq, Repr

/-- The condition column of R141 for an assigned operation, in the order of R144: the base before the number. -/
def rejectCause : Instr → Option RejectCause
  | .printNumber number base _ =>
    if base.toNat < 2 ∨ 16 < base.toNat then some .base
    else if number.toInt.natAbs ≤ base.toNat ^ 4 - 1 then none
    else if 0 ≤ number.toInt then some .overflowPositive
    else some .overflowNegative
  | .printTime first last => if 99 < first.toNat ∨ 99 < last.toNat then some .time else none
  | .initializeBlock _ | .setDisplayStatus _ | .setBlinkRate _ | .setBrightness _ | .clearDisplay
  | .writeDisplay | .writeColon | .drawColon _ | .toggleColon | .drawDigit _ _ _ | .clearDigit _
  | .clearDigits | .drawDot _ _ | .toggleDot _ | .drawHyphen _ | .drawOver _ | .drawUnder _
  | .drawLineUpper | .drawLineMiddle | .drawLineLower | .drawLines2 | .drawLines3 => none

end Sys2Proof.Machine
end

