-- ==== Sys2Proof/Machine/Ops.lean ====
section
/-! DEFINITION. The named operations over the buffer, the bus and the host's side: the primitives of
spec/00_scope.md R8, spec/40_driver.md R70 to R72 and spec/41_formatter_draw.md R91, taking the next input, and the
reset event (spec/70_reset_and_hazards.md R160, R161). Taking an exception has no operation: the block has none
(spec/60_exceptions.md R145, R146). -/

namespace Sys2Proof.Machine

/-- Reading `ADDR`: the stored address once `initialize` has written it; before that a free draw of 8 bits (R16,
R163, U1; log entry 5). -/
def State.busAddr (s : State) : BusAddr := if s.addrValid then s.addr else Config.unwrittenAddr s.draws

/-- The events of one transaction: `Begin`, the bytes, `End` (R30, R31). -/
def transactionEvents (address : BusAddr) (bytes : List Byte) : List BusEvent :=
  .beginTx address :: (bytes.map .writeByte ++ [.endTx])

/-- Emits one transaction, `ADDR` read once (R30). A free draw is used up (log entry 5). -/
def State.transaction (bytes : List Byte) (s : State) : State :=
  { s with
    trace := s.trace ++ transactionEvents s.busAddr bytes
    draws := if s.addrValid then s.draws else s.draws + 1 }

/-- `emit Open` (R30, D19). -/
def State.openBus (s : State) : State := { s with trace := s.trace ++ [.openBus] }

/-- The bytes of an n-byte value from least significant to most significant (R8). -/
def littleEndianBytes (n : Nat) (v : BitVec (8 * n)) : List Byte :=
  (List.range n).map fun k => v.extractLsb' (8 * k) 8

/-- `MemWrite(a, n, v)`: the only memory primitive, a bus transaction (R8). -/
def State.memWrite (a : Byte) (n : Nat) (v : BitVec (8 * n)) (s : State) : State :=
  s.transaction (a :: littleEndianBytes n v)

/-- `Cmd(c)`: one command byte in its own transaction (R70). -/
def State.cmd (c : Byte) (s : State) : State := s.transaction [c]

/-- The bytes of one cell as sent: low byte, then high byte (R34, R71). -/
def cellBytes (c : Cell) : List Byte := [cellLow c, cellHigh c]

/-- `Flush()`: row address 0, then every cell in order, low byte then high byte (R71). -/
def State.flush (s : State) : State := s.transaction (rowAddr 0 :: s.buf.toList.flatMap cellBytes)

/-- `BufWrite(i, v)`: the single write port of the buffer (R72). -/
def State.bufWrite (i : Fin Config.nCells) (v : Cell) (s : State) : State := { s with buf := s.buf.set i v }

/-- `ZeroAll()`: every cell 0x0000 (R72). -/
def State.zeroAll (s : State) : State := { s with buf := Vector.replicate Config.nCells 0x0000 }

/-- `PutDigit(pos, m)`: the whole cell replaced by the zero-extended mask when `pos <= 3`, else nothing (R90,
R91). -/
def State.putDigit (pos : Operand) (m : Mask) (s : State) : State :=
  match posCell pos with
  | some i => s.bufWrite i (cellOfMask m)
  | none => s

/-- `Line(m)`: `PutDigit(pos, m)` for pos = 0 to 3 (spec/41_formatter_draw.md section 6). -/
def State.line (m : Mask) (s : State) : State :=
  (((s.putDigit 0 m).putDigit 1 m).putDigit 2 m).putDigit 3 m

/-- The next thing the host presents, taken once (R41): none while the host presents nothing. -/
def State.takeInput (s : State) : Option (HostInput × State) :=
  match s.inputs with
  | [] => none
  | i :: rest => some (i, { s with inputs := rest })

/-- The host presents this input next. -/
def State.present (i : HostInput) (s : State) : State := { s with inputs := i :: s.inputs }

/-- The reset event: every register and both output histories as after reset, nothing sent (R160, R161). The
host's inputs and the count of free draws are not the block's and stay (log entry 9). -/
def State.resetEvent (s : State) : State := { State.reset with inputs := s.inputs, draws := s.draws }

/-- A request with an unassigned `op`: no state change, no event, `ok = 0` (R55). -/
def State.unassigned (s : State) : State := s.reject

end Sys2Proof.Machine
end

