-- ==== Sys2Proof/Machine/Draw.lean ====
section
/-! DEFINITION. The formatter's write, colon, digit, dot, bar and line operations (spec/41_formatter_draw.md R92 to
R108). The effects that `printNumber` and `printTime` use as sub-steps stand apart from their results. -/

namespace Sys2Proof.Machine

/-- The effect of `drawDigit(pos, value, dot)` (R96). -/
def State.digitStep (pos value : Operand) (dot : Bool) (s : State) : State :=
  s.putDigit pos (digitMask value dot)

/-- The effect of `clearDigits()` (R98). -/
def State.clearDigitsStep (s : State) : State := s.line maskEmpty

/-- The effect of `drawDot(pos, dot)`: bit 7 alone (R99). -/
def State.dotStep (pos : Operand) (dot : Bool) (s : State) : State :=
  match posCell pos with
  | some i => s.bufWrite i (if dot then s.buf[i] ||| 0x0080 else s.buf[i] &&& 0xFF7F)
  | none => s

/-- `writeDisplay()` (R92). -/
def execWriteDisplay (s : State) : Host.Outcome State Fault Refusal := .next (s.flush.respond true)

/-- `writeColon()`: the colon row's address, then its two bytes, low then high (R93, D23). -/
def execWriteColon (s : State) : Host.Outcome State Fault Refusal :=
  .next ((s.memWrite (rowAddr Config.colonCell) 2 s.buf[Config.colonCell]).respond true)

/-- `drawColon(status)` (R94). -/
def execDrawColon (status : Bool) (s : State) : Host.Outcome State Fault Refusal :=
  .next ((s.bufWrite Config.colonCell (cellOfMask (if status then maskColonLit else maskEmpty))).respond true)

/-- `toggleColon()`: the test is on all 16 bits of the cell (R95). -/
def execToggleColon (s : State) : Host.Outcome State Fault Refusal :=
  let m := if s.buf[Config.colonCell] ≠ 0x0000#16 then maskEmpty else maskColonLit
  .next ((s.bufWrite Config.colonCell (cellOfMask m)).respond true)

/-- `drawDigit(pos, value, dot)` (R96). -/
def execDrawDigit (pos value : Operand) (dot : Bool) (s : State) : Host.Outcome State Fault Refusal :=
  .next ((s.digitStep pos value dot).respond true)

/-- `clearDigit(pos)` (R97). -/
def execClearDigit (pos : Operand) (s : State) : Host.Outcome State Fault Refusal :=
  .next ((s.putDigit pos maskEmpty).respond true)

/-- `clearDigits()` (R98). -/
def execClearDigits (s : State) : Host.Outcome State Fault Refusal := .next (s.clearDigitsStep.respond true)

/-- `drawDot(pos, dot)` (R99). -/
def execDrawDot (pos : Operand) (dot : Bool) (s : State) : Host.Outcome State Fault Refusal :=
  .next ((s.dotStep pos dot).respond true)

/-- `toggleDot(pos)`: bit 7 inverted (R100). -/
def execToggleDot (pos : Operand) (s : State) : Host.Outcome State Fault Refusal :=
  match posCell pos with
  | some i => .next ((s.bufWrite i (s.buf[i] ^^^ 0x0080)).respond true)
  | none => .next (s.respond true)

/-- `drawHyphen(pos)`: the middle bar (R101). -/
def execDrawHyphen (pos : Operand) (s : State) : Host.Outcome State Fault Refusal :=
  .next ((s.putDigit pos maskHyphen).respond true)

/-- `drawOver(pos)`: the top bar (R102). -/
def execDrawOver (pos : Operand) (s : State) : Host.Outcome State Fault Refusal :=
  .next ((s.putDigit pos maskTop).respond true)

/-- `drawUnder(pos)`: the bottom bar (R103). -/
def execDrawUnder (pos : Operand) (s : State) : Host.Outcome State Fault Refusal :=
  .next ((s.putDigit pos maskBottom).respond true)

/-- `drawLineUpper()` (R104). -/
def execDrawLineUpper (s : State) : Host.Outcome State Fault Refusal := .next ((s.line maskTop).respond true)

/-- `drawLineMiddle()` (R105). -/
def execDrawLineMiddle (s : State) : Host.Outcome State Fault Refusal := .next ((s.line maskHyphen).respond true)

/-- `drawLineLower()` (R106). -/
def execDrawLineLower (s : State) : Host.Outcome State Fault Refusal := .next ((s.line maskBottom).respond true)

/-- `drawLines2()`: the OPEN pattern (R107, D16). -/
def execDrawLines2 (s : State) : Host.Outcome State Fault Refusal := .next ((s.line maskLines2).respond true)

/-- `drawLines3()` (R108). -/
def execDrawLines3 (s : State) : Host.Outcome State Fault Refusal := .next ((s.line maskLines3).respond true)

end Sys2Proof.Machine
end

