-- ==== Sys2Proof/Machine/Driver.lean ====
section
/-! DEFINITION. The five driver operations (spec/40_driver.md R73 to R77). The three configuration steps stand apart
from their results, because `initialize` performs them as sub-steps (R73, D25). -/

namespace Sys2Proof.Machine

/-- The effect of `setDisplayStatus(on)`: `DISP_ON <- on`, then the display-setup byte with the stored blink rate
(R74). -/
def State.displayStatusStep (on : Bool) (s : State) : State :=
  { s with dispOn := on }.cmd (dsetup on s.blink)

/-- The effect of `setBlinkRate(rate)`: `BLINK` takes the clamped rate, then the display-setup byte with the stored
on flag (R75). -/
def State.blinkRateStep (rate : Operand) (s : State) : State :=
  { s with blink := clampRate rate }.cmd (dsetup s.dispOn (clampRate rate))

/-- The effect of `setBrightness(level)`: `BRIGHT` takes the clamped level, then the brightness byte (R76). -/
def State.brightnessStep (level : Operand) (s : State) : State :=
  { s with bright := clampLevel level }.cmd (brightCmd (clampLevel level))

/-- `initialize(address)` (R73): records the address, opens the bus, oscillator on, zeroes and flushes the buffer,
then blink off, full brightness, display on, in that order. -/
def execInitialize (address : Operand) (s : State) : Host.Outcome State Fault Refusal :=
  let s1 := ({ s with addr := address, addrValid := true }.openBus).cmd cmdOscillatorOn
  let s2 := s1.zeroAll.flush
  let s3 := ((s2.blinkRateStep 0).brightnessStep 15).displayStatusStep true
  .next (s3.respond true)

/-- `setDisplayStatus(on)` (R74). -/
def execSetDisplayStatus (on : Bool) (s : State) : Host.Outcome State Fault Refusal :=
  .next ((s.displayStatusStep on).respond true)

/-- `setBlinkRate(rate)` (R75). -/
def execSetBlinkRate (rate : Operand) (s : State) : Host.Outcome State Fault Refusal :=
  .next ((s.blinkRateStep rate).respond true)

/-- `setBrightness(level)` (R76). -/
def execSetBrightness (level : Operand) (s : State) : Host.Outcome State Fault Refusal :=
  .next ((s.brightnessStep level).respond true)

/-- `clearDisplay()`: zeroes every cell, then flushes (R77). -/
def execClearDisplay (s : State) : Host.Outcome State Fault Refusal :=
  .next (s.zeroAll.flush.respond true)

end Sys2Proof.Machine
end

