-- ==== Sys2Proof/Machine/Print.lean ====
section
/-! DEFINITION. `printNumber` and `printTime` (spec/42_formatter_print.md R120 to R123). -/

namespace Sys2Proof.Machine

/-- The loop of `printNumber` (R122 step 4). `free` is `p + 1`, the number of slots still free, so `p` from 3 down
to -1 is `free` from 4 down to 0 (R121 item 7); the body runs before the test. It answers the state, the
magnitude left and the slots left free. -/
def digitLoop (base : Nat) (padding : Bool) : Nat → Nat → State → State × Nat × Nat
  | 0, m, s => (s, m, 0)
  | p + 1, m, s =>
    let s' := s.digitStep (BitVec.ofNat 8 p) (BitVec.ofNat 8 (m % base)) false
    if p ≠ 0 ∧ (m / base ≠ 0 ∨ padding = true) then digitLoop base padding p (m / base) s'
    else (s', m / base, p)

/-- The sign of a negative number (R122 step 6): a hyphen in the slot left of the leftmost digit, or with no slot
free the dot on the rightmost digit. -/
def State.signStep (free : Nat) (s : State) : State :=
  match free with
  | 0 => s.dotStep 3 true
  | p + 1 => s.putDigit (BitVec.ofNat 8 p) maskHyphen

/-- `printNumber(number, base, padding)` (R122). -/
def execPrintNumber (number : Num32) (base : Operand) (padding : Bool) (s : State) : Host.Outcome State Fault Refusal :=
  let s0 := s.clearDigitsStep
  if !baseAccepted base then .next s0.reject
  else
    let (s1, left, free) := digitLoop base.toNat padding Config.nDigits (magnitude number).toNat s0
    if left ≠ 0 then .next (s1.line (if isNegative number then maskBottom else maskTop)).reject
    else .next ((if isNegative number then s1.signStep free else s1).respond true)

/-- `printTime(first, last)` (R123): the clear, then the range test, then the four digits. -/
def execPrintTime (first last : Operand) (s : State) : Host.Outcome State Fault Refusal :=
  let s0 := s.clearDigitsStep
  if !timeAccepted first last then .next s0.reject
  else
    .next (((((s0.digitStep 0 (tens first) false).digitStep 1 (units first) false).digitStep 2 (tens last)
      false).digitStep 3 (units last) false).respond true)

end Sys2Proof.Machine
end

