-- ==== Sys2Proof/Machine/Dispatch.lean ====
section
/-! DEFINITION. One arm per operation (spec/30_encoding.md R52), in the table's order. -/

namespace Sys2Proof.Machine

def exec (i : Instr) (s : State) : Host.Outcome State Fault Refusal :=
  match i with
  | .initializeBlock address => Sys2Proof.Machine.execInitialize address s
  | .setDisplayStatus on => Sys2Proof.Machine.execSetDisplayStatus on s
  | .setBlinkRate rate => Sys2Proof.Machine.execSetBlinkRate rate s
  | .setBrightness level => Sys2Proof.Machine.execSetBrightness level s
  | .clearDisplay => Sys2Proof.Machine.execClearDisplay s
  | .writeDisplay => Sys2Proof.Machine.execWriteDisplay s
  | .writeColon => Sys2Proof.Machine.execWriteColon s
  | .drawColon status => Sys2Proof.Machine.execDrawColon status s
  | .toggleColon => Sys2Proof.Machine.execToggleColon s
  | .drawDigit pos value dot => Sys2Proof.Machine.execDrawDigit pos value dot s
  | .clearDigit pos => Sys2Proof.Machine.execClearDigit pos s
  | .clearDigits => Sys2Proof.Machine.execClearDigits s
  | .drawDot pos dot => Sys2Proof.Machine.execDrawDot pos dot s
  | .toggleDot pos => Sys2Proof.Machine.execToggleDot pos s
  | .drawHyphen pos => Sys2Proof.Machine.execDrawHyphen pos s
  | .drawOver pos => Sys2Proof.Machine.execDrawOver pos s
  | .drawUnder pos => Sys2Proof.Machine.execDrawUnder pos s
  | .drawLineUpper => Sys2Proof.Machine.execDrawLineUpper s
  | .drawLineMiddle => Sys2Proof.Machine.execDrawLineMiddle s
  | .drawLineLower => Sys2Proof.Machine.execDrawLineLower s
  | .drawLines2 => Sys2Proof.Machine.execDrawLines2 s
  | .drawLines3 => Sys2Proof.Machine.execDrawLines3 s
  | .printNumber number base padding => Sys2Proof.Machine.execPrintNumber number base padding s
  | .printTime first last => Sys2Proof.Machine.execPrintTime first last s

end Sys2Proof.Machine
end

