-- ==== Sys2Proof/Machine/Step.lean ====
section
/-! DEFINITION. One step: the next input the host presents, run to completion (spec/30_encoding.md R50,
spec/20_memory.md R37, R41). With nothing presented the block idles with all state held (spec/60_exceptions.md
R151; log entry 2). -/

namespace Sys2Proof.Machine

/-- One request from the host (or one reset between requests). An unassigned `op` is answered with `ok = 0` and
no other effect (R55). -/
def step (s : State) : Host.Outcome State Fault Refusal :=
  match s.takeInput with
  | none => .next s
  | some (.reset, s') => .next s'.resetEvent
  | some (.request w, s') =>
    match decodeRequest w with
    | .ok i => exec i s'
    | .error _ => .next s'.unassigned

/-- The host presents this request word next (log entry 1: a program is presented from outside). -/
def State.withFetchWord (s : State) (nbits w : Nat) : State := s.present (.request (wordOfBits nbits w))

end Sys2Proof.Machine
end

