-- ==== Sys2Proof/Machine/Chip.lean ====
section
/-! DEFINITION. The informative mirror of the controller chip as a function of the bus trace (spec/20_memory.md R43;
log entry 12). The chip is outside the block (spec/00_scope.md R4): no operation reads any of this, and State does
not hold it, because it is determined by `T` (spec/10_state.md R17). `none` says "unspecified until written". -/

namespace Sys2Proof.Machine

/-- The chip's display RAM, byte addresses 0x00 to 0x0F (R32): the bytes written so far, in one canonical form. -/
abbrev DisplayRam := List Host.Cell

/-- The canonical form: addresses strictly rising, all below 16. -/
abbrev DisplayRam.wf (m : DisplayRam) : Prop :=
  m.Pairwise (fun x y => x.1 < y.1) ∧ ∀ x ∈ m, x.1 < 16

/-- The byte at an address; `none` where nothing has written it (R43: unspecified). -/
def DisplayRam.read (m : DisplayRam) (a : Nat) : Option Byte := m.lookup a

/-- One byte stored, the form kept. -/
def DisplayRam.write (a : Nat) (v : Byte) : DisplayRam → DisplayRam
  | [] => [(a, v)]
  | (b, w) :: rest =>
    if a < b then (a, v) :: (b, w) :: rest
    else if a = b then (a, v) :: rest
    else (b, w) :: DisplayRam.write a v rest

/-- Data bytes stored at consecutive addresses (R43, G2). A byte past 0x0F is dropped: the block never sends one
(R35; log entry 12). -/
def DisplayRam.store (a : Nat) : List Byte → DisplayRam → DisplayRam
  | [], m => m
  | v :: vs, m => DisplayRam.store (a + 1) vs (if a < 16 then DisplayRam.write a v m else m)

/-- The chip's registers as far as the spec gives them (R43). -/
structure Chip where
  /-- `DRAM[0..15]`. -/
  dram : DisplayRam
  /-- `OSC`. -/
  osc : Option Bool
  /-- `D_ON`. -/
  dOn : Option Bool
  /-- `D_BLINK`. -/
  dBlink : Option (BitVec 2)
  /-- `D_BRIGHT`. -/
  dBright : Option (BitVec 4)
  deriving DecidableEq, Repr

/-- Nothing written yet (R43, R24, U9). -/
def Chip.unspecified : Chip := ⟨[], none, none, none, none⟩

/-- One complete transaction's bytes received (R43). A first byte the chip's protocol does not name changes nothing
(log entry 12). -/
def Chip.receive (c : Chip) : List Byte → Chip
  | [] => c
  | b :: data =>
    if b ≤ 0x0F#8 then { c with dram := c.dram.store b.toNat data }
    else if b = 0x20#8 then { c with osc := some false }
    else if b = 0x21#8 then { c with osc := some true }
    else if 0x80#8 ≤ b ∧ b ≤ 0x87#8 then
      { c with dOn := some (b.getLsbD 0), dBlink := some (b.extractLsb' 1 2) }
    else if 0xE0#8 ≤ b ∧ b ≤ 0xEF#8 then { c with dBright := some (b.extractLsb' 0 4) }
    else c

/-- The chip at the end of a trace, and the transaction in progress: its address and the bytes so far. -/
structure ChipView where
  chip : Chip
  pending : Option (BusAddr × List Byte)
  deriving DecidableEq, Repr

/-- One bus event seen by the chip whose bus address is `address` (R43). -/
def ChipView.event (address : BusAddr) (v : ChipView) : BusEvent → ChipView
  | .openBus => v
  | .beginTx a => { v with pending := some (a, []) }
  | .writeByte b => { v with pending := v.pending.map fun p => (p.1, p.2 ++ [b]) }
  | .endTx =>
    match v.pending with
    | some (a, bytes) => ⟨if a = address then v.chip.receive bytes else v.chip, none⟩
    | none => v

/-- The chip at bus address `address` as a function of the trace (R43). -/
def chipOf (address : BusAddr) (trace : List BusEvent) : Chip :=
  (trace.foldl (ChipView.event address) ⟨Chip.unspecified, none⟩).chip

end Sys2Proof.Machine
end

