-- ==== Sys2Proof/Safety.lean ====
section
/-! DEFINITION. What the claims speak of: frames, the shapes of the bus trace (spec/20_memory.md R31), the
invariants of the state (spec/10_state.md R20), the chip mirror's agreement (R43, spec/40_driver.md R79) and
sequences of operations. -/

namespace Sys2Proof.Safety

open Sys2Proof.Machine

/-- The configuration registers are unchanged (R13 to R16). -/
def SameConfig (s t : State) : Prop :=
  t.dispOn = s.dispOn ∧ t.blink = s.blink ∧ t.bright = s.bright ∧ t.addr = s.addr ∧ t.addrValid = s.addrValid

/-- Every cell outside the listed raw indices is unchanged. -/
def SameCellsBut (written : List (Fin 8)) (s t : State) : Prop :=
  ∀ i : Fin 8, i ∉ written → t.buf[i] = s.buf[i]

/-- The raw indices of the four digit cells (R11, R25). -/
def digitCells : List (Fin 8) := [0, 1, 3, 4]

/-- No bus event and no free draw. -/
def Silent (s t : State) : Prop := t.trace = s.trace ∧ t.draws = s.draws

/-- The result bit given, and the host's side untouched. -/
def Answered (ok : Bool) (s t : State) : Prop := t.responses = s.responses ++ [ok] ∧ t.inputs = s.inputs

/-- A pure buffer transform that writes only the listed cells, answers `ok` and changes nothing else (R38, R109). -/
def BufferOnly (ok : Bool) (written : List (Fin 8)) (s t : State) : Prop :=
  SameConfig s t ∧ SameCellsBut written s t ∧ Silent s t ∧ Answered ok s t

/-- One transaction `Begin(a) Write(b) … End` of these bytes. -/
def txEvents (a : BusAddr) (bytes : List Byte) : List BusEvent :=
  [.beginTx a] ++ bytes.map .writeByte ++ [.endTx]

/-- Exactly one transaction of these bytes is appended to the trace, addressed with `ADDR` when it is valid; while
it is not, the operand of `Begin` is some byte the claim does not fix (R163). -/
def Sends (bytes : List Byte) (s t : State) : Prop :=
  ∃ a : BusAddr, (s.addrValid = true → a = s.addr ∧ t.draws = s.draws) ∧ t.trace = s.trace ++ txEvents a bytes

/-- Every request word with this `op` decodes to this operation of its fields (R52). -/
def Encoded (op : Byte) (f : Req64 → Instr) : Prop :=
  ∀ w : Req64, Request.op w = op → decodeRequest w = .ok (f w)

/-- The digit of weight `base ^ j` of `m` (R126). -/
def digitOf (m base j : Nat) : Nat := m / base ^ j % base

/-- The raw index of logical position `p`, written out from R40. -/
def rawOf (p : Nat) : Nat := if p < 2 then p else p + 1

/-- The raw index of the position that holds the digit of weight `base ^ j`: position 3 - j (R126, R40). -/
def cellOfWeight : Fin 4 → Fin 8
  | 0 => 4
  | 1 => 3
  | 2 => 1
  | 3 => 0

/-- The invariants 1 to 3 of R20: high bytes zero, cells 5 to 7 zero, the colon cell 0x0000 or 0x0002. -/
def BufferInv (s : State) : Prop :=
  (∀ i : Fin 8, s.buf[i].extractLsb' 8 8 = 0#8) ∧
    (s.buf[5] = 0 ∧ s.buf[6] = 0 ∧ s.buf[7] = 0) ∧ (s.buf[2] = 0x0000 ∨ s.buf[2] = 0x0002)

/-- The four shapes of R31. -/
inductive BusItem where
  | opening
  | command (a : BusAddr) (c : Byte)
  | fullWrite (a : BusAddr) (data : List Byte)
  | colonWrite (a : BusAddr) (d0 d1 : Byte)

/-- The events of a shape (R31). -/
def BusItem.events : BusItem → List BusEvent
  | .opening => [.openBus]
  | .command a c => txEvents a [c]
  | .fullWrite a data => txEvents a (0x00 :: data)
  | .colonWrite a d0 d1 => txEvents a [0x04, d0, d1]

/-- What the bytes of a shape may be: the command bytes of R31; in a full write 16 data bytes of which the high
byte of every row, and both bytes of rows 5 to 7, are 0x00 (R20); in a colon write 0x00 or 0x02, then 0x00 (R93). -/
def BusItem.legal : BusItem → Prop
  | .opening => True
  | .command _ c => c = 0x21 ∨ (0x80 ≤ c.toNat ∧ c.toNat ≤ 0x87) ∨ (0xE0 ≤ c.toNat ∧ c.toNat ≤ 0xEF)
  | .fullWrite _ data =>
    ∃ d0 d1 d2 d3 d4 : Byte, data = [d0, 0, d1, 0, d2, 0, d3, 0, d4, 0, 0, 0, 0, 0, 0, 0]
  | .colonWrite _ d0 d1 => (d0 = 0x00 ∨ d0 = 0x02) ∧ d1 = 0x00

/-- The trace is a concatenation of complete, legal shapes (R31). -/
def TraceLegal (trace : List BusEvent) : Prop :=
  ∃ items : List BusItem, (∀ x ∈ items, x.legal) ∧ trace = items.flatMap BusItem.events

/-- The buffer and the trace are as R20 and R31 say. -/
def SystemInv (s : State) : Prop := BufferInv s ∧ TraceLegal s.trace

/-- Once `initialize` has run, the chip at `ADDR` is told what the registers hold (R43, R79), and every byte of its
display RAM has been written. -/
def MirrorInv (s : State) : Prop :=
  s.addrValid = true →
    (chipOf s.addr s.trace).osc = some true ∧ (chipOf s.addr s.trace).dOn = some s.dispOn ∧
      (chipOf s.addr s.trace).dBlink = some s.blink ∧ (chipOf s.addr s.trace).dBright = some s.bright ∧
        ∀ a < 16, ((chipOf s.addr s.trace).dram.read a).isSome = true

/-- The chip's display RAM equals the buffer, byte for byte by R33. -/
def ChipShowsBuffer (s : State) : Prop :=
  ∀ i : Fin 8,
    (chipOf s.addr s.trace).dram.read (2 * i.val) = some (s.buf[i].extractLsb' 0 8) ∧
      (chipOf s.addr s.trace).dram.read (2 * i.val + 1) = some (s.buf[i].extractLsb' 8 8)

/-- The outcome is a next state with a property: the operation completes, and its state is as said. -/
def NextWith (o : Host.Outcome State Fault Refusal) (P : State → Prop) : Prop := ∃ t : State, o = .next t ∧ P t

/-- Operations run one after another, each to its end (R37). -/
def runAll : List Instr → State → Host.Outcome State Fault Refusal
  | [], s => .next s
  | i :: is, s =>
    match exec i s with
    | .next t => runAll is t
    | .fault r => .fault r
    | .refused r => .refused r

/-- Two outcomes have the same effect on the block and on the bus; the count of result bits is left out, because a
sequence answers once for each of its operations (R61, R110). -/
def SameEffect (o p : Host.Outcome State Fault Refusal) : Prop :=
  ∃ t u : State, o = .next t ∧ p = .next u ∧ u.buf = t.buf ∧ SameConfig t u ∧ u.trace = t.trace ∧ u.draws = t.draws

/-- An event with the operand of `Begin` erased (R163: the one part of the output that is not defined). -/
def eraseAddress : BusEvent → BusEvent
  | .beginTx _ => .beginTx 0
  | e => e

/-- The operations of 41_formatter_draw.md sections 3 to 6 and of 42_formatter_print.md: those that emit no bus
event (R38, R163 item 1). -/
def drawsOnly : Instr → Bool
  | .drawColon _ | .toggleColon | .drawDigit _ _ _ | .clearDigit _ | .clearDigits | .drawDot _ _ | .toggleDot _
  | .drawHyphen _ | .drawOver _ | .drawUnder _ | .drawLineUpper | .drawLineMiddle | .drawLineLower | .drawLines2
  | .drawLines3 | .printNumber _ _ _ | .printTime _ _ => true
  | .initializeBlock _ | .setDisplayStatus _ | .setBlinkRate _ | .setBrightness _ | .clearDisplay | .writeDisplay
  | .writeColon => false

/-- Whether the column "writes" of R25's table lets the operation write this digit cell: the operations with a position
only the cell `raw(pos)` and only for `pos` at most 3. -/
def mayWriteDigitCell (i : Instr) (c : Fin 8) : Bool :=
  match i with
  | .drawDigit pos _ _ | .clearDigit pos | .drawDot pos _ | .toggleDot pos | .drawHyphen pos | .drawOver pos
  | .drawUnder pos => decide (pos.toNat ≤ 3 ∧ c.val = rawOf pos.toNat)
  | .initializeBlock _ | .clearDisplay | .clearDigits | .drawLineUpper | .drawLineMiddle | .drawLineLower
  | .drawLines2 | .drawLines3 | .printNumber _ _ _ | .printTime _ _ => true
  | .setDisplayStatus _ | .setBlinkRate _ | .setBrightness _ | .writeDisplay | .writeColon | .drawColon _
  | .toggleColon => false

/-- The operations that leave the same state requested twice as once (R110). -/
def idempotentOp : Instr → Bool
  | .drawColon _ | .drawDigit _ _ _ | .clearDigit _ | .clearDigits | .drawDot _ _ | .drawHyphen _ | .drawOver _
  | .drawUnder _ | .drawLineUpper | .drawLineMiddle | .drawLineLower | .drawLines2 | .drawLines3 => true
  | .initializeBlock _ | .setDisplayStatus _ | .setBlinkRate _ | .setBrightness _ | .clearDisplay | .writeDisplay
  | .writeColon | .toggleColon | .toggleDot _ | .printNumber _ _ _ | .printTime _ _ => false

/-- The operations whose repetition emits the same bytes again and leaves the same state (R36). -/
def retryOp : Instr → Bool
  | .writeDisplay | .writeColon | .setBrightness _ | .setBlinkRate _ | .setDisplayStatus _ | .clearDisplay => true
  | .initializeBlock _ | .drawColon _ | .toggleColon | .drawDigit _ _ _ | .clearDigit _ | .clearDigits
  | .drawDot _ _ | .toggleDot _ | .drawHyphen _ | .drawOver _ | .drawUnder _ | .drawLineUpper | .drawLineMiddle
  | .drawLineLower | .drawLines2 | .drawLines3 | .printNumber _ _ _ | .printTime _ _ => false

/-- Bus events per operation (R173). -/
def eventCount : Instr → Nat
  | .initializeBlock _ => 32
  | .writeDisplay | .clearDisplay => 19
  | .writeColon => 5
  | .setDisplayStatus _ | .setBlinkRate _ | .setBrightness _ => 3
  | .drawColon _ | .toggleColon | .drawDigit _ _ _ | .clearDigit _ | .clearDigits | .drawDot _ _ | .toggleDot _
  | .drawHyphen _ | .drawOver _ | .drawUnder _ | .drawLineUpper | .drawLineMiddle | .drawLineLower | .drawLines2
  | .drawLines3 | .printNumber _ _ _ | .printTime _ _ => 0

end Sys2Proof.Safety
end

