-- ==== Sys2Proof/WellFormed.lean ====
section
/-! DEFINITION. Well-formed requests. Every `Instr` is well-formed as it stands, because its operands have the
widths of spec/30_encoding.md R50 and every value of those widths is an operand (R53). What can be ill-formed is
a request WORD: the block ignores what it does not use (R55), but a host should write an assigned `op`, 0 in `rsv`
(R51) and 0 in every field the operation does not use (R60). -/

namespace Sys2Proof

/-- The `op` value is one of R52. -/
def opAssigned (op : Byte) : Bool :=
  decide (op.toNat ≤ 0x04) || (decide (0x10 ≤ op.toNat) && decide (op.toNat ≤ 0x22))

/-- Whether the operation with this `op` uses the field `a` (the column "uses" of R52). -/
def usesA (op : Byte) : Bool :=
  [0x00, 0x02, 0x03, 0x14, 0x15, 0x17, 0x18, 0x19, 0x1A, 0x1B, 0x21, 0x22].contains op.toNat

/-- Whether the operation with this `op` uses the field `b` (R52). -/
def usesB (op : Byte) : Bool := [0x14, 0x22].contains op.toNat

/-- Whether the operation with this `op` uses the field `f` (R52). -/
def usesF (op : Byte) : Bool := [0x01, 0x12, 0x14, 0x17, 0x21].contains op.toNat

/-- Whether the operation with this `op` uses the field `n` (R52). -/
def usesN (op : Byte) : Bool := [0x21].contains op.toNat

/-- `rsv` is 0, as a host should write it (R51). -/
def rsvZero (w : Req64) : Bool := Request.rsv w == 0

/-- Every field the operation does not use is 0, as an assembler writes it (R60). -/
def unusedZero (w : Req64) : Bool :=
  (usesA (Request.op w) || Request.a w == 0) &&
    ((usesB (Request.op w) || Request.b w == 0) &&
      ((usesF (Request.op w) || !Request.f w) && (usesN (Request.op w) || Request.n w == 0)))

/-- A well-formed request word: what an assembler writes (R60). -/
def wellFormedRequest (w : Req64) : Bool :=
  opAssigned (Request.op w) && (rsvZero w && unusedZero w)

end Sys2Proof
end

