-- ==== Sys2Proof/Certificates/Slice0/Obligations.lean ====
section
/-! DEFINITION. The statements for the provers: what the numbered rules of spec/ say the operations and the block
do. Each is listed in OBLIGATIONS.json. The result bit of R54 is read off the model's history of result bits (log
entry 3), and the request a step takes off the model's list of what the host presents (log entry 1). That an
operation which sends bus events completes, and what the chip mirror holds, is said for a transport that accepts and
delivers every event in order (D18, U6; log entry 8). -/

open Sys2Proof Sys2Proof.Machine Sys2Proof.Safety

/-! ## Requests and steps -/

/-- R52, R53, R60: decoding the word of any operation gives that operation, every operand at every value. -/
def Obligations.DecodeOfEncodeIsTheOperation : Prop :=
  ∀ i : Instr, decodeRequest (encode i) = .ok i

/-- R51, R55, R60: every well-formed request word is the word of exactly the operation it decodes to, so no bit of
it is dropped. -/
def Obligations.WellFormedWordIsEncodedOperation : Prop :=
  ∀ w : Req64, wellFormedRequest w = true → ∃ i : Instr, decodeRequest w = .ok i ∧ encode i = w

/-- R52: the row whose `match` a word has under the mask 0xFF00000000000000 gives its operation, each operand the
bits of its field as R51 and R53 place them. -/
def Obligations.OpcodeMapSelectsRowByMask : Prop :=
  ∀ w m : Req64, w &&& 0xFF00000000000000#64 = m →
    (m = 0x0000000000000000#64 → decodeRequest w = .ok (.initializeBlock (w.extractLsb' 48 8))) ∧
    (m = 0x0100000000000000#64 → decodeRequest w = .ok (.setDisplayStatus (w.getLsbD 32))) ∧
    (m = 0x0200000000000000#64 → decodeRequest w = .ok (.setBlinkRate (w.extractLsb' 48 8))) ∧
    (m = 0x0300000000000000#64 → decodeRequest w = .ok (.setBrightness (w.extractLsb' 48 8))) ∧
    (m = 0x0400000000000000#64 → decodeRequest w = .ok .clearDisplay) ∧
    (m = 0x1000000000000000#64 → decodeRequest w = .ok .writeDisplay) ∧
    (m = 0x1100000000000000#64 → decodeRequest w = .ok .writeColon) ∧
    (m = 0x1200000000000000#64 → decodeRequest w = .ok (.drawColon (w.getLsbD 32))) ∧
    (m = 0x1300000000000000#64 → decodeRequest w = .ok .toggleColon) ∧
    (m = 0x1400000000000000#64 →
      decodeRequest w = .ok (.drawDigit (w.extractLsb' 48 8) (w.extractLsb' 40 8) (w.getLsbD 32))) ∧
    (m = 0x1500000000000000#64 → decodeRequest w = .ok (.clearDigit (w.extractLsb' 48 8))) ∧
    (m = 0x1600000000000000#64 → decodeRequest w = .ok .clearDigits) ∧
    (m = 0x1700000000000000#64 → decodeRequest w = .ok (.drawDot (w.extractLsb' 48 8) (w.getLsbD 32))) ∧
    (m = 0x1800000000000000#64 → decodeRequest w = .ok (.toggleDot (w.extractLsb' 48 8))) ∧
    (m = 0x1900000000000000#64 → decodeRequest w = .ok (.drawHyphen (w.extractLsb' 48 8))) ∧
    (m = 0x1A00000000000000#64 → decodeRequest w = .ok (.drawOver (w.extractLsb' 48 8))) ∧
    (m = 0x1B00000000000000#64 → decodeRequest w = .ok (.drawUnder (w.extractLsb' 48 8))) ∧
    (m = 0x1C00000000000000#64 → decodeRequest w = .ok .drawLineUpper) ∧
    (m = 0x1D00000000000000#64 → decodeRequest w = .ok .drawLineMiddle) ∧
    (m = 0x1E00000000000000#64 → decodeRequest w = .ok .drawLineLower) ∧
    (m = 0x1F00000000000000#64 → decodeRequest w = .ok .drawLines2) ∧
    (m = 0x2000000000000000#64 → decodeRequest w = .ok .drawLines3) ∧
    (m = 0x2100000000000000#64 →
      decodeRequest w = .ok (.printNumber (w.extractLsb' 0 32) (w.extractLsb' 48 8) (w.getLsbD 32))) ∧
    (m = 0x2200000000000000#64 →
      decodeRequest w = .ok (.printTime (w.extractLsb' 48 8) (w.extractLsb' 40 8)))

/-- R52, R60: words written out from the encoding decode to the operations they stand for
(95_test_vectors.md Q1 to Q7, Q12, Q13). -/
def Obligations.WrittenOutWordsDecode : Prop :=
  decodeRequest 0x1402070100000000#64 = .ok (.drawDigit 2 7 true) ∧
    decodeRequest 0x140207FFFFFFFFFF#64 = .ok (.drawDigit 2 7 true) ∧
    decodeRequest 0x140207FEDEADBEEF#64 = .ok (.drawDigit 2 7 false) ∧
    decodeRequest 0x16FFFFFFFFFFFFFF#64 = .ok .clearDigits ∧
    decodeRequest 0x210A0000FFFFFF85#64 = .ok (.printNumber (BitVec.ofInt 32 (-123)) 10 false) ∧
    decodeRequest 0x2110000100000007#64 = .ok (.printNumber 7 16 true) ∧
    decodeRequest 0x22173B0000000000#64 = .ok (.printTime 23 59) ∧
    decodeRequest 0x2000000000000000#64 = .ok .drawLines3 ∧
    decodeRequest 0x0070000000000000#64 = .ok (.initializeBlock 0x70)

/-- R55: a request with an unassigned `op` changes no state, emits no bus event and answers `ok = 0`, and `rsv` and
the fields an operation does not use never change what a word decodes to. -/
def Obligations.UnassignedOpChangesNothing : Prop :=
  (∀ (s : State) (w : Req64) (rest : List HostInput), s.inputs = .request w :: rest →
    ((0x05 ≤ (Request.op w).toNat ∧ (Request.op w).toNat ≤ 0x0F) ∨ 0x23 ≤ (Request.op w).toNat) →
      decodeRequest w = .error (.unassignedOp (Request.op w)) ∧
        step s = .next { s with inputs := rest, responses := s.responses ++ [false] }) ∧
    ∀ w v : Req64, Request.op w = Request.op v →
      (usesA (Request.op w) = true → Request.a w = Request.a v) →
      (usesB (Request.op w) = true → Request.b w = Request.b v) →
      (usesF (Request.op w) = true → Request.f w = Request.f v) →
      (usesN (Request.op w) = true → Request.n w = Request.n v) → decodeRequest w = decodeRequest v

/-- R37, R41, R50: when the request the host presents next decodes to an operation, a step is that operation run on
the state with the request taken. -/
def Obligations.StepRunsDecodedRequest : Prop :=
  ∀ (s : State) (w : Req64) (rest : List HostInput) (i : Instr),
    s.inputs = .request w :: rest → decodeRequest w = .ok i → step s = exec i { s with inputs := rest }

/-- R151 (idle between requests) and R160, R161 (the reset event): with nothing presented a step keeps all state,
and a reset presented between two operations leaves every register at its reset value, sends nothing and starts an
empty trace. The stored `ADDR` is not in the statement; that the host's inputs are kept in a list, that the result
bits start anew and that the count of draws stays are the model's choices (log entries 1, 2, 9). -/
def Obligations.StepIdlesOrResets : Prop :=
  (∀ s : State, s.inputs = [] → step s = .next s) ∧
    ∀ (s : State) (rest : List HostInput), s.inputs = .reset :: rest →
      NextWith (step s) fun t =>
        (∀ i : Fin 8, t.buf[i] = 0x0000) ∧ t.dispOn = false ∧ t.blink = 0 ∧ t.bright = 0 ∧ t.addrValid = false ∧
          t.trace = [] ∧ t.responses = [] ∧ t.inputs = rest ∧ t.draws = s.draws

/-- R24: what reset leaves in every register the spec gives a reset value, the empty trace, and nothing known of the
chip. `ADDR` is unspecified and not in the statement. -/
def Obligations.ResetLeavesRegistersZero : Prop :=
  (∀ i : Fin 8, State.reset.buf[i] = 0x0000) ∧ State.reset.dispOn = false ∧ State.reset.blink = 0 ∧
    State.reset.bright = 0 ∧ State.reset.addrValid = false ∧ State.reset.trace = [] ∧
      ∀ a : BusAddr, chipOf a State.reset.trace = Chip.unspecified

/-! ## Driver operations -/

/-- R73: what `initialize` leaves and the 32 events it emits, from any state, and that no other operation emits
`Open`, sends the command 0x21 anywhere among its events (they are none, or one transaction of other bytes) or writes
`ADDR`. -/
def Obligations.InitializeBootsAndEmits32Events : Prop :=
  Encoded 0x00 (fun w => .initializeBlock (Request.a w)) ∧
    (∀ (address : Operand) (s : State),
      NextWith (exec (.initializeBlock address) s) fun t =>
        t.addr = address ∧ t.addrValid = true ∧ (∀ i : Fin 8, t.buf[i] = 0x0000) ∧ t.blink = 0 ∧ t.bright = 15 ∧
          t.dispOn = true ∧
          t.trace = s.trace ++
            ([.openBus, .beginTx address, .writeByte 0x21, .endTx, .beginTx address, .writeByte 0x00] ++
              List.replicate 16 (.writeByte 0x00) ++
              [.endTx, .beginTx address, .writeByte (if s.dispOn then 0x81 else 0x80), .endTx, .beginTx address,
                .writeByte 0xEF, .endTx, .beginTx address, .writeByte 0x81, .endTx]) ∧
          t.trace.length = s.trace.length + 32 ∧ t.draws = s.draws ∧ Answered true s t) ∧
    ∀ (i : Instr) (s : State), (∀ a : Operand, i ≠ .initializeBlock a) →
      NextWith (exec i s) fun t =>
        t.addr = s.addr ∧ t.addrValid = s.addrValid ∧
          ∃ evs : List BusEvent, t.trace = s.trace ++ evs ∧ BusEvent.openBus ∉ evs ∧
            (∀ a : BusAddr, ¬txEvents a [0x21] <:+: evs) ∧
            (evs = [] ∨ ∃ (a : BusAddr) (bytes : List Byte), evs = txEvents a bytes ∧ bytes ≠ [0x21])

/-- R74: `setDisplayStatus` stores the flag and sends one display-setup byte with the stored blink rate; nothing
else changes, the chip's display RAM among it. -/
def Obligations.SetDisplayStatusStoresAndSends : Prop :=
  Encoded 0x01 (fun w => .setDisplayStatus (Request.f w)) ∧
    ∀ (on : Bool) (s : State),
      NextWith (exec (.setDisplayStatus on) s) fun t =>
        t.dispOn = on ∧ t.blink = s.blink ∧ t.bright = s.bright ∧ t.addr = s.addr ∧ t.addrValid = s.addrValid ∧
          t.buf = s.buf ∧
          Sends [0x80#8 ||| (if on then 1 else 0) ||| (s.blink.setWidth 8 <<< 1)] s t ∧ Answered true s t ∧
          ∀ a : BusAddr, (chipOf a t.trace).dram = (chipOf a s.trace).dram

/-- R75: `setBlinkRate` takes a rate above 3 as 0, stores it and sends one display-setup byte with the stored on
flag; nothing else changes. -/
def Obligations.SetBlinkRateClampsStoresAndSends : Prop :=
  Encoded 0x02 (fun w => .setBlinkRate (Request.a w)) ∧
    ∀ (rate : Operand) (s : State),
      NextWith (exec (.setBlinkRate rate) s) fun t =>
        t.blink.toNat = (if 3 < rate.toNat then 0 else rate.toNat) ∧ t.dispOn = s.dispOn ∧ t.bright = s.bright ∧
          t.addr = s.addr ∧ t.addrValid = s.addrValid ∧ t.buf = s.buf ∧
          Sends [0x80#8 ||| (if s.dispOn then 1 else 0) ||| (t.blink.setWidth 8 <<< 1)] s t ∧ Answered true s t

/-- R76: `setBrightness` takes a level above 15 as 15, stores it and sends one brightness byte; nothing else
changes. -/
def Obligations.SetBrightnessClampsStoresAndSends : Prop :=
  Encoded 0x03 (fun w => .setBrightness (Request.a w)) ∧
    ∀ (level : Operand) (s : State),
      NextWith (exec (.setBrightness level) s) fun t =>
        t.bright.toNat = min level.toNat 15 ∧ t.dispOn = s.dispOn ∧ t.blink = s.blink ∧ t.addr = s.addr ∧
          t.addrValid = s.addrValid ∧ t.buf = s.buf ∧
          Sends [BitVec.ofNat 8 (0xE0 + min level.toNat 15)] s t ∧ Answered true s t

/-- R77: `clearDisplay` zeroes every cell and sends the 19 events of one full write of zeros; the configuration
stays. -/
def Obligations.ClearDisplayZeroesAndFlushes : Prop :=
  Encoded 0x04 (fun _ => .clearDisplay) ∧
    ∀ s : State,
      NextWith (exec .clearDisplay s) fun t =>
        (∀ i : Fin 8, t.buf[i] = 0x0000) ∧ SameConfig s t ∧ Sends (List.replicate 17 0x00) s t ∧
          t.trace.length = s.trace.length + 19 ∧ Answered true s t

/-! ## Write and colon operations -/

/-- R92: `writeDisplay` sends every cell, low byte then high byte, in one write of 19 events and changes no
register; with the invariants of R20 all bytes but the five low bytes of cells 0 to 4 are 0x00; and of the
formatter's operations only this one and `writeColon` emit events. -/
def Obligations.WriteDisplaySendsEveryCell : Prop :=
  Encoded 0x10 (fun _ => .writeDisplay) ∧
    (∀ s : State,
      NextWith (exec .writeDisplay s) fun t =>
        t.buf = s.buf ∧ SameConfig s t ∧ Answered true s t ∧ t.trace.length = s.trace.length + 19 ∧
          Sends (0x00 :: (List.finRange 8).flatMap fun i => [s.buf[i].extractLsb' 0 8, s.buf[i].extractLsb' 8 8])
            s t ∧
          (BufferInv s →
            Sends [0x00, s.buf[0].extractLsb' 0 8, 0x00, s.buf[1].extractLsb' 0 8, 0x00, s.buf[2].extractLsb' 0 8,
              0x00, s.buf[3].extractLsb' 0 8, 0x00, s.buf[4].extractLsb' 0 8, 0x00, 0, 0, 0, 0, 0, 0] s t)) ∧
    ∀ (i : Instr) (s : State), drawsOnly i = true → NextWith (exec i s) fun t => Silent s t

/-- R93: `writeColon` sends 0x04 and the two bytes of cell 2, low then high, and changes no register, which is
`MemWrite(0x04, 2, BUF[2])`; with the invariants of R20 the bytes are 0x02 0x00 or 0x00 0x00. -/
def Obligations.WriteColonSendsColonCell : Prop :=
  Encoded 0x11 (fun _ => .writeColon) ∧
    ∀ s : State,
      exec .writeColon s = .next ((s.memWrite 0x04 2 s.buf[2]).respond true) ∧
        NextWith (exec .writeColon s) fun t =>
          t.buf = s.buf ∧ SameConfig s t ∧ Answered true s t ∧ t.trace.length = s.trace.length + 5 ∧
            Sends [0x04, s.buf[2].extractLsb' 0 8, s.buf[2].extractLsb' 8 8] s t ∧
            (BufferInv s → Sends [0x04, 0x02, 0x00] s t ∨ Sends [0x04, 0x00, 0x00] s t)

/-- R94: `drawColon` writes the whole colon cell, 0x0002 or 0x0000, and nothing else. -/
def Obligations.DrawColonWritesColonCell : Prop :=
  Encoded 0x12 (fun w => .drawColon (Request.f w)) ∧
    ∀ (status : Bool) (s : State),
      NextWith (exec (.drawColon status) s) fun t =>
        t.buf[2] = (if status then 0x0002 else 0x0000) ∧ BufferOnly true [2] s t

/-- R95: `toggleColon` empties a non-zero colon cell and lights a zero one, and nothing else; twice it restores a
colon cell that is 0x0000 or 0x0002. -/
def Obligations.ToggleColonFlipsColonCell : Prop :=
  Encoded 0x13 (fun _ => .toggleColon) ∧
    ∀ s : State,
      NextWith (exec .toggleColon s) fun t =>
        t.buf[2] = (if s.buf[2] = 0x0000 then 0x0002 else 0x0000) ∧ BufferOnly true [2] s t ∧
          NextWith (exec .toggleColon t) fun u => (s.buf[2] = 0x0000 ∨ s.buf[2] = 0x0002) → u.buf = s.buf

/-! ## Digits, dots, bars and lines -/

/-- R90: with `pos` above 3 every operation that takes a position changes no state, emits nothing and answers
`ok = 1`. -/
def Obligations.PositionsAboveThreeAreIgnored : Prop :=
  ∀ (pos value : Operand) (dot : Bool) (s : State), 3 < pos.toNat →
    ∀ i ∈ [Instr.drawDigit pos value dot, .clearDigit pos, .drawDot pos dot, .toggleDot pos, .drawHyphen pos,
        .drawOver pos, .drawUnder pos],
      exec i s = .next { s with responses := s.responses ++ [true] }

/-- R96: `drawDigit` replaces the whole cell of its position by the table's pattern (empty above 15) with the dot
ORed in, at the raw index of R40, and nothing else. -/
def Obligations.DrawDigitReplacesCell : Prop :=
  Encoded 0x14 (fun w => .drawDigit (Request.a w) (Request.b w) (Request.f w)) ∧
    ∀ (pos value : Operand) (dot : Bool) (s : State),
      NextWith (exec (.drawDigit pos value dot) s) fun t =>
        (∀ i : Fin 8, t.buf[i] =
          if pos.toNat ≤ 3 ∧ i.val = rawOf pos.toNat then
            ((if value.toNat ≤ 15 then
                [0x3F#8, 0x06, 0x5B, 0x4F, 0x66, 0x6D, 0x7D, 0x07, 0x7F, 0x6F, 0x77, 0x7C, 0x39, 0x5E, 0x79,
                  0x71].getD value.toNat 0
              else 0x00#8) ||| (if dot then 0x80#8 else 0x00#8)).setWidth 16
          else s.buf[i]) ∧
          BufferOnly true digitCells s t

/-- R97: `clearDigit` zeroes the cell of its position, and nothing else. -/
def Obligations.ClearDigitZeroesCell : Prop :=
  Encoded 0x15 (fun w => .clearDigit (Request.a w)) ∧
    ∀ (pos : Operand) (s : State),
      NextWith (exec (.clearDigit pos) s) fun t =>
        (∀ i : Fin 8, t.buf[i] = if pos.toNat ≤ 3 ∧ i.val = rawOf pos.toNat then 0x0000 else s.buf[i]) ∧
          BufferOnly true digitCells s t

/-- R98: `clearDigits` zeroes the four digit cells and nothing else, and twice gives the buffer of once. -/
def Obligations.ClearDigitsZeroesDigitCells : Prop :=
  Encoded 0x16 (fun _ => .clearDigits) ∧
    ∀ s : State,
      NextWith (exec .clearDigits s) fun t =>
        (∀ i ∈ digitCells, t.buf[i] = 0x0000) ∧ BufferOnly true digitCells s t ∧
          NextWith (exec .clearDigits t) fun u => u.buf = t.buf

/-- R99: `drawDot` changes bit 7 of the cell of its position and keeps every other bit; nothing else changes. -/
def Obligations.DrawDotSetsBitSeven : Prop :=
  Encoded 0x17 (fun w => .drawDot (Request.a w) (Request.f w)) ∧
    ∀ (pos : Operand) (dot : Bool) (s : State),
      NextWith (exec (.drawDot pos dot) s) fun t =>
        (∀ (i : Fin 8) (k : Nat), t.buf[i].getLsbD k =
          if pos.toNat ≤ 3 ∧ i.val = rawOf pos.toNat ∧ k = 7 then dot else s.buf[i].getLsbD k) ∧
          BufferOnly true digitCells s t

/-- R100: `toggleDot` inverts bit 7 of the cell of its position and keeps every other bit; nothing else changes, and
twice restores the buffer. -/
def Obligations.ToggleDotInvertsBitSeven : Prop :=
  Encoded 0x18 (fun w => .toggleDot (Request.a w)) ∧
    ∀ (pos : Operand) (s : State),
      NextWith (exec (.toggleDot pos) s) fun t =>
        (∀ (i : Fin 8) (k : Nat), t.buf[i].getLsbD k =
          if pos.toNat ≤ 3 ∧ i.val = rawOf pos.toNat ∧ k = 7 then !s.buf[i].getLsbD k else s.buf[i].getLsbD k) ∧
          BufferOnly true digitCells s t ∧ NextWith (exec (.toggleDot pos) t) fun u => u.buf = s.buf

/-- R101, R102, R103: `drawHyphen`, `drawOver` and `drawUnder` replace the whole cell of their position by 0x0040,
0x0001 and 0x0008, and nothing else. -/
def Obligations.BarsReplaceCell : Prop :=
  Encoded 0x19 (fun w => .drawHyphen (Request.a w)) ∧ Encoded 0x1A (fun w => .drawOver (Request.a w)) ∧
    Encoded 0x1B (fun w => .drawUnder (Request.a w)) ∧
    ∀ (pos : Operand) (s : State),
      ∀ p ∈ [(Instr.drawHyphen pos, 0x0040#16), (.drawOver pos, 0x0001#16), (.drawUnder pos, 0x0008#16)],
        NextWith (exec p.1 s) fun t =>
          (∀ i : Fin 8, t.buf[i] = if pos.toNat ≤ 3 ∧ i.val = rawOf pos.toNat then p.2 else s.buf[i]) ∧
            BufferOnly true digitCells s t

/-- R104 to R108: the five line operations replace the four digit cells by their pattern and change nothing else.
The pattern of `drawLines2` is OPEN: one of 0x09, 0x41, 0x48, the same in every state. -/
def Obligations.LinesReplaceDigitCells : Prop :=
  Encoded 0x1C (fun _ => .drawLineUpper) ∧ Encoded 0x1D (fun _ => .drawLineMiddle) ∧
    Encoded 0x1E (fun _ => .drawLineLower) ∧ Encoded 0x1F (fun _ => .drawLines2) ∧
    Encoded 0x20 (fun _ => .drawLines3) ∧
    ∃ lines2 : Cell, (lines2 = 0x0009 ∨ lines2 = 0x0041 ∨ lines2 = 0x0048) ∧
      ∀ s : State,
        ∀ p ∈ [(Instr.drawLineUpper, 0x0001#16), (.drawLineMiddle, 0x0040#16), (.drawLineLower, 0x0008#16),
            (.drawLines2, lines2), (.drawLines3, 0x0049#16)],
          NextWith (exec p.1 s) fun t => (∀ i ∈ digitCells, t.buf[i] = p.2) ∧ BufferOnly true digitCells s t

/-! ## printNumber and printTime -/

/-- R122: the whole result of `printNumber`. `shown j` says that the digit of weight `base ^ j` is drawn: always for
`j = 0`, for every `j` with padding, else while the number reaches that far. -/
def Obligations.PrintNumberRendersDigitsAndSign : Prop :=
  Encoded 0x21 (fun w => .printNumber (Request.n w) (Request.a w) (Request.f w)) ∧
    ∀ (number : Num32) (base : Operand) (padding : Bool) (s : State),
      NextWith (exec (.printNumber number base padding) s) fun t =>
        let b := base.toNat
        let m := number.toInt.natAbs
        let neg : Prop := number.toInt < 0
        let shown (j : Nat) : Prop := padding = true ∨ j = 0 ∨ m / b ^ j ≠ 0
        (b < 2 ∨ 16 < b → BufferOnly false digitCells s t ∧ ∀ i ∈ digitCells, t.buf[i] = 0x0000) ∧
          (2 ≤ b ∧ b ≤ 16 ∧ b ^ 4 ≤ m →
            BufferOnly false digitCells s t ∧
              ∀ i ∈ digitCells, (neg → t.buf[i] = 0x0008) ∧ (¬neg → t.buf[i] = 0x0001)) ∧
          (2 ≤ b ∧ b ≤ 16 ∧ m < b ^ 4 →
            BufferOnly true digitCells s t ∧
              ∀ j : Fin 4,
                (shown j → neg ∧ shown 3 ∧ j = 0 →
                  t.buf[cellOfWeight j] = (segTable.getD (digitOf m b j) 0 ||| 0x80#8).setWidth 16) ∧
                (shown j → ¬(neg ∧ shown 3 ∧ j = 0) →
                  t.buf[cellOfWeight j] = (segTable.getD (digitOf m b j) 0).setWidth 16) ∧
                (¬shown j → neg ∧ shown (j - 1) → t.buf[cellOfWeight j] = 0x0040) ∧
                (¬shown j → ¬(neg ∧ shown (j - 1)) → t.buf[cellOfWeight j] = 0x0000))

/-- R125: for a base in 2 to 16 `printNumber` answers `ok = 1` exactly when the magnitude is at most `base ^ 4 - 1`,
with the table of the fifteen bounds. -/
def Obligations.PrintNumberRange : Prop :=
  ∀ (number : Num32) (base : Operand) (padding : Bool) (s : State), 2 ≤ base.toNat → base.toNat ≤ 16 →
    NextWith (exec (.printNumber number base padding) s) fun t =>
      t.responses = s.responses ++ [decide (number.toInt.natAbs ≤ base.toNat ^ 4 - 1)] ∧
        [15, 80, 255, 624, 1295, 2400, 4095, 6560, 9999, 14640, 20735, 28560, 38415, 50624,
          65535].getD (base.toNat - 2) 0 = base.toNat ^ 4 - 1

/-- R126: the shape of a successful `printNumber`, with `k` the number of digits of the magnitude in the base (1 for
0): the digit of weight `base ^ j` at position 3 - j for `j < k`; left of them zeros with padding, else the hyphen
next to the digits of a negative number and blanks; the dot on position 3 when a negative number has no slot free. -/
def Obligations.PrintNumberShape : Prop :=
  ∀ (number : Num32) (base : Operand) (padding : Bool) (s : State), 2 ≤ base.toNat → base.toNat ≤ 16 →
    number.toInt.natAbs ≤ base.toNat ^ 4 - 1 →
    NextWith (exec (.printNumber number base padding) s) fun t =>
      let m := number.toInt.natAbs
      let ds := if m = 0 then [0] else Nat.digits base.toNat m
      let k := ds.length
      1 ≤ k ∧ k ≤ 4 ∧
        ∀ j : Fin 4, t.buf[cellOfWeight j] =
          if j.val < k then
            (segTable.getD (ds.getD j 0) 0 |||
              (if number.toInt < 0 ∧ (padding = true ∨ k = 4) ∧ j = 0 then 0x80#8 else 0x00#8)).setWidth 16
          else if padding = true then 0x003F
          else if number.toInt < 0 ∧ j.val = k then 0x0040
          else 0x0000

/-- R121 item 3: the magnitude of `number` is its mathematical absolute value, the most negative number included. -/
def Obligations.MagnitudeIsAbsoluteValue : Prop :=
  ∀ number : Num32, (magnitude number).toNat = number.toInt.natAbs

/-- R123: `printTime` clears the digits, rejects an operand above 99, else shows tens and units of both operands at
the four positions; the colon and everything else stay. -/
def Obligations.PrintTimeShowsTensAndUnits : Prop :=
  Encoded 0x22 (fun w => .printTime (Request.a w) (Request.b w)) ∧
    ∀ (first last : Operand) (s : State),
      NextWith (exec (.printTime first last) s) fun t =>
        (99 < first.toNat ∨ 99 < last.toNat →
          BufferOnly false digitCells s t ∧ ∀ i ∈ digitCells, t.buf[i] = 0x0000) ∧
          (first.toNat ≤ 99 ∧ last.toNat ≤ 99 →
            BufferOnly true digitCells s t ∧
              t.buf[0] = (segTable.getD (first.toNat / 10) 0).setWidth 16 ∧
              t.buf[1] = (segTable.getD (first.toNat % 10) 0).setWidth 16 ∧
              t.buf[3] = (segTable.getD (last.toNat / 10) 0).setWidth 16 ∧
              t.buf[4] = (segTable.getD (last.toNat % 10) 0).setWidth 16)

/-! ## Results, rejects and rules of the whole block -/

/-- R141: the state each reject leaves, under the condition of its row, all five rows; the colon cell, the reserved
cells, the configuration registers and the trace are unchanged by it. -/
def Obligations.RejectsLeaveTheTablesState : Prop :=
  (∀ (number : Num32) (base : Operand) (padding : Bool) (s : State), base.toNat < 2 ∨ 16 < base.toNat →
    NextWith (exec (.printNumber number base padding) s) fun t =>
      BufferOnly false digitCells s t ∧ ∀ i ∈ digitCells, t.buf[i] = 0x0000) ∧
    (∀ (number : Num32) (base : Operand) (padding : Bool) (s : State), 2 ≤ base.toNat → base.toNat ≤ 16 →
      (base.toNat : Int) ^ 4 - 1 < number.toInt →
      NextWith (exec (.printNumber number base padding) s) fun t =>
        BufferOnly false digitCells s t ∧ ∀ i ∈ digitCells, t.buf[i] = 0x0001) ∧
    (∀ (number : Num32) (base : Operand) (padding : Bool) (s : State), 2 ≤ base.toNat → base.toNat ≤ 16 →
      number.toInt < -((base.toNat : Int) ^ 4 - 1) →
      NextWith (exec (.printNumber number base padding) s) fun t =>
        BufferOnly false digitCells s t ∧ ∀ i ∈ digitCells, t.buf[i] = 0x0008) ∧
    (∀ (first last : Operand) (s : State), 99 < first.toNat ∨ 99 < last.toNat →
      NextWith (exec (.printTime first last) s) fun t =>
        BufferOnly false digitCells s t ∧ ∀ i ∈ digitCells, t.buf[i] = 0x0000) ∧
    ∀ (s : State) (w : Req64) (rest : List HostInput), s.inputs = .request w :: rest →
      (0x05 ≤ (Request.op w).toNat ∧ (Request.op w).toNat ≤ 0x0F) ∨ 0x23 ≤ (Request.op w).toNat →
        NextWith (step s) fun t =>
          t.buf = s.buf ∧ SameConfig s t ∧ Silent s t ∧ t.responses = s.responses ++ [false]

/-- R54: every assigned operation answers one bit, 0 exactly under a reject condition of R141 and so 1 for every
operation but `printNumber` and `printTime`; an unassigned `op` answers 0; nothing else is answered. -/
def Obligations.EveryRequestAnswersOneBit : Prop :=
  (∀ (i : Instr) (s : State),
    NextWith (exec i s) fun t => t.responses = s.responses ++ [decide (rejectCause i = none)]) ∧
    (∀ i : Instr, (∀ n b p, i ≠ .printNumber n b p) → (∀ f l, i ≠ .printTime f l) → rejectCause i = none) ∧
    ∀ (s : State) (w : Req64) (rest : List HostInput) (e : DecodeError), s.inputs = .request w :: rest →
      decodeRequest w = .error e → NextWith (step s) fun t => t.responses = s.responses ++ [false]

/-- R145: no step faults or is refused, in any state: "Nothing in this layer is fatal". -/
def Obligations.NoStepEverStops : Prop :=
  ∀ s : State, ∃ t : State, step s = .next t

/-- R38, R109, R165: the drawing and printing operations emit no bus event, write no configuration register, no
reserved cell, and the colon cell only in `drawColon` and `toggleColon`. -/
def Obligations.DrawingOperationsStayInTheBuffer : Prop :=
  ∀ (i : Instr) (s : State), drawsOnly i = true →
    NextWith (exec i s) fun t =>
      SameConfig s t ∧ Silent s t ∧ t.inputs = s.inputs ∧ SameCellsBut [0, 1, 2, 3, 4] s t ∧
        ((∀ b : Bool, i ≠ .drawColon b) → i ≠ .toggleColon → t.buf[2] = s.buf[2])

/-- R25: which operation may write which register, over all operations: the read and write table's column "writes",
the digit cells of the positioned operations at `raw(pos)` for `pos` at most 3; and `ADDR_VALID` is never cleared by
an operation. -/
def Obligations.OnlyTheTablesOperationsWrite : Prop :=
  ∀ (i : Instr) (s : State),
    NextWith (exec i s) fun t =>
      (t.addr ≠ s.addr ∨ t.addrValid ≠ s.addrValid → ∃ a, i = .initializeBlock a) ∧
        (t.dispOn ≠ s.dispOn → (∃ a, i = .initializeBlock a) ∨ ∃ b, i = .setDisplayStatus b) ∧
        (t.blink ≠ s.blink → (∃ a, i = .initializeBlock a) ∨ ∃ r, i = .setBlinkRate r) ∧
        (t.bright ≠ s.bright → (∃ a, i = .initializeBlock a) ∨ ∃ l, i = .setBrightness l) ∧
        (t.buf[2] ≠ s.buf[2] →
          (∃ a, i = .initializeBlock a) ∨ i = .clearDisplay ∨ (∃ b, i = .drawColon b) ∨ i = .toggleColon) ∧
        (t.buf[5] ≠ s.buf[5] ∨ t.buf[6] ≠ s.buf[6] ∨ t.buf[7] ≠ s.buf[7] →
          (∃ a, i = .initializeBlock a) ∨ i = .clearDisplay) ∧
        (∀ c ∈ digitCells, t.buf[c] ≠ s.buf[c] → mayWriteDigitCell i c = true) ∧
        (s.addrValid = true → t.addrValid = true) ∧ t.inputs = s.inputs

/-- R17, R30, R37: an operation only appends to the trace, and once `ADDR` is valid every `Begin` it appends carries
the value `ADDR` has after it. -/
def Obligations.TraceOnlyGrowsWithCurrentAddress : Prop :=
  ∀ (i : Instr) (s : State),
    NextWith (exec i s) fun t =>
      ∃ evs : List BusEvent, t.trace = s.trace ++ evs ∧
        (t.addrValid = true → ∀ a : BusAddr, BusEvent.beginTx a ∈ evs → a = t.addr)

/-- R173: the number of bus events of each operation. -/
def Obligations.EventCountsPerOperation : Prop :=
  ∀ (i : Instr) (s : State), NextWith (exec i s) fun t => t.trace.length = s.trace.length + eventCount i

/-- R8, R71: the flush is the memory write of 16 bytes at 0x00, and the bytes of a memory write are those of its
value from the least significant on. -/
def Obligations.FlushIsMemWrite : Prop :=
  ∀ s : State,
    s.flush = s.memWrite 0x00 16
        (s.buf[7] ++ s.buf[6] ++ s.buf[5] ++ s.buf[4] ++ s.buf[3] ++ s.buf[2] ++ s.buf[1] ++ s.buf[0] : BitVec 128) ∧
      ∀ (a : Byte) (n : Nat) (v : BitVec (8 * n)),
        ∃ bytes : List Byte, bytes.length = n ∧ Sends (a :: bytes) s (s.memWrite a n v) ∧
          ∀ (k : Nat) (hk : k < bytes.length), bytes[k] = v.extractLsb' (8 * k) 8

/-- R61: the equalities of effect among operations. -/
def Obligations.OperationsEqualInEffect : Prop :=
  ∀ s : State,
    (∀ pos value : Operand, 15 < value.toNat → exec (.clearDigit pos) s = exec (.drawDigit pos value false) s) ∧
      SameEffect (exec .clearDigits s) (runAll [.clearDigit 0, .clearDigit 1, .clearDigit 2, .clearDigit 3] s) ∧
      SameEffect (exec .drawLineUpper s) (runAll [.drawOver 0, .drawOver 1, .drawOver 2, .drawOver 3] s) ∧
      SameEffect (exec .drawLineMiddle s) (runAll [.drawHyphen 0, .drawHyphen 1, .drawHyphen 2, .drawHyphen 3] s) ∧
      SameEffect (exec .drawLineLower s) (runAll [.drawUnder 0, .drawUnder 1, .drawUnder 2, .drawUnder 3] s) ∧
      exec .toggleColon s = exec (.drawColon (decide (s.buf[2] = 0x0000))) s ∧
      exec .writeDisplay s = .next (s.flush.respond true)

/-- R110: idempotence of the drawing operations and involution of the two toggles, the colon's under the invariants
of R20. -/
def Obligations.IdempotenceAndInvolution : Prop :=
  (∀ (i : Instr) (s : State), idempotentOp i = true → SameEffect (runAll [i] s) (runAll [i, i] s)) ∧
    (∀ (pos : Operand) (s : State), SameEffect (.next s) (runAll [.toggleDot pos, .toggleDot pos] s)) ∧
    ∀ s : State, BufferInv s → SameEffect (.next s) (runAll [.toggleColon, .toggleColon] s)

/-- R36: after `initialize`, repeating a bus operation with the same operands emits the same events again and leaves
the same state. -/
def Obligations.RetryEmitsTheSameAgain : Prop :=
  ∀ (i : Instr) (s : State), retryOp i = true → s.addrValid = true →
    NextWith (exec i s) fun t =>
      NextWith (exec i t) fun u =>
        u.buf = t.buf ∧ SameConfig t u ∧
          ∃ evs : List BusEvent, t.trace = s.trace ++ evs ∧ u.trace = t.trace ++ evs

/-- R163: whatever `ADDR` and `ADDR_VALID` hold, every operation leaves the same registers, answers the same bit and
emits the same events up to the operand of `Begin`; so the registers are defined before `initialize`. -/
def Obligations.RegistersDefinedBeforeInitialize : Prop :=
  ∀ (i : Instr) (s : State) (address : BusAddr),
    NextWith (exec i s) fun t =>
      NextWith (exec i { s with addr := address, addrValid := true }) fun u =>
        u.buf = t.buf ∧ u.dispOn = t.dispOn ∧ u.blink = t.blink ∧ u.bright = t.bright ∧ u.responses = t.responses ∧
          u.trace.map eraseAddress = t.trace.map eraseAddress ∧ (drawsOnly i = true → u.trace = t.trace)

/-! ## Invariants -/

/-- R20 items 1 to 3, R31: every step keeps the invariants of the buffer and the trace's being a concatenation of
complete legal shapes. -/
def Obligations.StepKeepsSystemInv : Prop :=
  ∀ s t : State, SystemInv s → step s = .next t → SystemInv t

/-- R20, R24: the state after reset meets the invariants. -/
def Obligations.ResetMeetsSystemInv : Prop := SystemInv State.reset

/-- R43, R79: every step keeps the chip's being told what the registers hold: the last display-setup and brightness
bytes sent to `ADDR` are those of `DISP_ON`, `BLINK`, `BRIGHT`. -/
def Obligations.StepKeepsMirrorInv : Prop :=
  ∀ s t : State, MirrorInv s → step s = .next t → MirrorInv t

/-- R24, R43: the state after reset meets the mirror invariant. -/
def Obligations.ResetMeetsMirrorInv : Prop := MirrorInv State.reset

/-- R43, R162: from any state, after `initialize(a)` the chip at `a` has its oscillator on, display RAM all zero,
display on, no blinking, full brightness. -/
def Obligations.InitializeBootsTheChip : Prop :=
  ∀ (address : Operand) (s : State),
    NextWith (exec (.initializeBlock address) s) fun t =>
      (chipOf address t.trace).osc = some true ∧ (chipOf address t.trace).dOn = some true ∧
        (chipOf address t.trace).dBlink = some 0 ∧ (chipOf address t.trace).dBright = some 15 ∧
          ∀ a < 16, (chipOf address t.trace).dram.read a = some 0x00

/-- R33, R38: after a full buffer write the chip's display RAM equals the buffer byte for byte, and stays so while no
operation changes the buffer. -/
def Obligations.FullWriteMakesChipShowBuffer : Prop :=
  (∀ s : State, s.addrValid = true →
    NextWith (exec .writeDisplay s) ChipShowsBuffer ∧ NextWith (exec .clearDisplay s) ChipShowsBuffer) ∧
    (∀ (a : Operand) (s : State), NextWith (exec (.initializeBlock a) s) ChipShowsBuffer) ∧
    ∀ (i : Instr) (s : State), s.addrValid = true → ChipShowsBuffer s →
      NextWith (exec i s) fun t => t.buf = s.buf → ChipShowsBuffer t

/-- R36, R38, R166: `writeColon` makes display RAM 0x04 and 0x05 equal the colon cell and leaves every other byte and
every other register of the chip as it was. -/
def Obligations.ColonWriteUpdatesColonRowOnly : Prop :=
  ∀ s : State, s.addrValid = true →
    NextWith (exec .writeColon s) fun t =>
      (chipOf s.addr t.trace).dram.read 4 = some (s.buf[2].extractLsb' 0 8) ∧
        (chipOf s.addr t.trace).dram.read 5 = some (s.buf[2].extractLsb' 8 8) ∧
        (∀ a : Nat, a ≠ 4 → a ≠ 5 →
          (chipOf s.addr t.trace).dram.read a = (chipOf s.addr s.trace).dram.read a) ∧
        (chipOf s.addr t.trace).osc = (chipOf s.addr s.trace).osc ∧
        (chipOf s.addr t.trace).dOn = (chipOf s.addr s.trace).dOn ∧
        (chipOf s.addr t.trace).dBlink = (chipOf s.addr s.trace).dBlink ∧
        (chipOf s.addr t.trace).dBright = (chipOf s.addr s.trace).dBright
end

