-- ==== Sys2Proof/Laws/Chip.lean ====
section
/-! SUPPORT. The chip mirror (spec/20_memory.md R43): its display RAM keeps the canonical form and reads back what
was written, and a complete transaction appended to a trace is received once. -/

namespace Sys2Proof.Machine

open Sys2Proof.Safety

/-! ### The display RAM -/

theorem DisplayRam.mem_write {a : Nat} {v : Byte} {m : DisplayRam} {x : Host.Cell}
    (h : x ∈ DisplayRam.write a v m) : x = (a, v) ∨ x ∈ m := by
  induction m with
  | nil => simpa [DisplayRam.write] using h
  | cons c rest ih =>
    obtain ⟨b, w⟩ := c
    unfold DisplayRam.write at h
    split at h
    · simpa using h
    · split at h
      · rcases List.mem_cons.1 h with h | h
        · exact .inl h
        · exact .inr (List.mem_cons_of_mem _ h)
      · rcases List.mem_cons.1 h with h | h
        · exact .inr (by simp [h])
        · rcases ih h with h | h
          · exact .inl h
          · exact .inr (List.mem_cons_of_mem _ h)

/-- A write keeps the canonical form. -/
theorem DisplayRam.write_wf {a : Nat} (v : Byte) {m : DisplayRam} (ha : a < 16) (h : DisplayRam.wf m) :
    DisplayRam.wf (DisplayRam.write a v m) := by
  induction m with
  | nil => simpa [DisplayRam.write, DisplayRam.wf] using ha
  | cons c rest ih =>
    obtain ⟨b, w⟩ := c
    obtain ⟨hp, hb⟩ := h
    rw [List.pairwise_cons] at hp
    have hrest : DisplayRam.wf rest := ⟨hp.2, fun x hx => hb x (List.mem_cons_of_mem _ hx)⟩
    unfold DisplayRam.write
    split
    · rename_i hab
      refine ⟨List.pairwise_cons.2 ⟨fun x hx => ?_, List.pairwise_cons.2 hp⟩, fun x hx => ?_⟩
      · rcases List.mem_cons.1 hx with rfl | hx
        · exact hab
        · exact Nat.lt_trans hab (hp.1 x hx)
      · rcases List.mem_cons.1 hx with rfl | hx
        · exact ha
        · exact hb x hx
    · split
      · rename_i hab
        subst hab
        refine ⟨List.pairwise_cons.2 ⟨hp.1, hp.2⟩, fun x hx => ?_⟩
        rcases List.mem_cons.1 hx with rfl | hx
        · exact ha
        · exact hb x (List.mem_cons_of_mem _ hx)
      · obtain ⟨ih1, ih2⟩ := ih hrest
        refine ⟨List.pairwise_cons.2 ⟨fun x hx => ?_, ih1⟩, fun x hx => ?_⟩
        · rcases DisplayRam.mem_write hx with rfl | hx
          · show b < a; omega
          · exact hp.1 x hx
        · rcases List.mem_cons.1 hx with rfl | hx
          · exact hb _ List.mem_cons_self
          · exact ih2 x hx

/-- Storing the data bytes of a transaction keeps the canonical form. -/
theorem DisplayRam.store_wf (a : Nat) (vs : List Byte) {m : DisplayRam} (h : DisplayRam.wf m) :
    DisplayRam.wf (DisplayRam.store a vs m) := by
  induction vs generalizing a m with
  | nil => exact h
  | cons v vs ih =>
    unfold DisplayRam.store
    apply ih
    split
    · exact DisplayRam.write_wf v ‹_› h
    · exact h

/-- A read after a write gives the value written at its address, and what was there elsewhere. -/
theorem DisplayRam.read_write (a b : Nat) (v : Byte) (m : DisplayRam) :
    DisplayRam.read (DisplayRam.write a v m) b = if b = a then some v else DisplayRam.read m b := by
  unfold DisplayRam.read
  induction m with
  | nil =>
    by_cases h : b = a
    · simp [DisplayRam.write, h]
    · simp [DisplayRam.write, List.lookup, beq_false_of_ne h, h]
  | cons c rest ih =>
    obtain ⟨d, w⟩ := c
    unfold DisplayRam.write
    split
    · rw [List.lookup_cons]
      by_cases h : b = a <;> simp [h, beq_false_of_ne]
    · split
      · rename_i hd
        subst hd
        rw [List.lookup_cons, List.lookup_cons]
        by_cases h : b = a <;> simp [h, beq_false_of_ne]
      · rw [List.lookup_cons, List.lookup_cons, ih]
        by_cases h : b = d
        · have : b ≠ a := by omega
          simp [h]; omega
        · simp [beq_false_of_ne h]

/-- What a stored transaction leaves at each address: its data at consecutive addresses below 16, the rest as it
was (R43). -/
theorem DisplayRam.read_store (a b : Nat) (vs : List Byte) (m : DisplayRam) :
    DisplayRam.read (DisplayRam.store a vs m) b =
      if h : a ≤ b ∧ b < a + vs.length ∧ b < 16 then some (vs[b - a]'(by omega)) else DisplayRam.read m b := by
  induction vs generalizing a m with
  | nil =>
    have : ¬(a ≤ b ∧ b < a + ([] : List Byte).length ∧ b < 16) := by simp; omega
    simp only [DisplayRam.store, this, dite_false]
  | cons v vs ih =>
    unfold DisplayRam.store
    rw [ih]
    by_cases hb : b = a
    · subst hb
      by_cases h16 : b < 16
      · simp [h16, DisplayRam.read_write]
      · simp [h16]
    · by_cases hin : a + 1 ≤ b ∧ b < a + 1 + vs.length ∧ b < 16
      · have h2 : a ≤ b ∧ b < a + (v :: vs).length ∧ b < 16 := by simp only [List.length_cons]; omega
        simp only [hin, h2]
        obtain ⟨k, rfl⟩ : ∃ k, b = a + 1 + k := ⟨b - (a + 1), by omega⟩
        simp [show a + 1 + k - a = k + 1 by omega]
      · have h2 : ¬(a ≤ b ∧ b < a + (v :: vs).length ∧ b < 16) := by simp only [List.length_cons]; omega
        simp only [hin, h2, dite_false]
        split
        · rw [DisplayRam.read_write, if_neg hb]
        · rfl

/-! ### The trace -/

/-- The chip at the end of a trace, with the transaction in progress. -/
def viewOf (address : BusAddr) (trace : List BusEvent) : ChipView :=
  trace.foldl (ChipView.event address) ⟨Chip.unspecified, none⟩

theorem chipOf_eq (address : BusAddr) (trace : List BusEvent) : chipOf address trace = (viewOf address trace).chip := rfl

theorem foldl_writes (address : BusAddr) (bytes : List Byte) (c : Chip) (p : BusAddr × List Byte) :
    (bytes.map BusEvent.writeByte).foldl (ChipView.event address) ⟨c, some p⟩ = ⟨c, some (p.1, p.2 ++ bytes)⟩ := by
  induction bytes generalizing p with
  | nil => simp
  | cons b bs ih => simp [ChipView.event, ih]

/-- A complete transaction is received if it is addressed to the chip, and changes nothing otherwise. -/
theorem chipOf_append_txEvents (address a : BusAddr) (bytes : List Byte) (trace : List BusEvent) :
    chipOf address (trace ++ txEvents a bytes) =
      if a = address then (chipOf address trace).receive bytes else chipOf address trace := by
  have h : viewOf address (trace ++ txEvents a bytes) =
      ⟨if a = address then (viewOf address trace).chip.receive bytes else (viewOf address trace).chip, none⟩ := by
    unfold viewOf txEvents
    simp only [List.foldl_append, List.foldl_cons, List.foldl_nil]
    generalize trace.foldl (ChipView.event address) ⟨Chip.unspecified, none⟩ = v
    rw [show ChipView.event address v (.beginTx a) = ⟨v.chip, some (a, [])⟩ from rfl, foldl_writes]
    simp [ChipView.event]
  rw [chipOf_eq, h, chipOf_eq]

/-- Opening the bus changes nothing in the chip. -/
theorem chipOf_append_openBus (address : BusAddr) (trace : List BusEvent) :
    chipOf address (trace ++ [.openBus]) = chipOf address trace := by
  simp [chipOf, List.foldl_append, ChipView.event]

theorem chipOf_nil (address : BusAddr) : chipOf address [] = Chip.unspecified := rfl

/-- What a transaction does to the display RAM: an address byte stores the data, a command byte nothing. -/
theorem Chip.receive_dram (c : Chip) (b : Byte) (data : List Byte) :
    (c.receive (b :: data)).dram = if b ≤ 0x0F#8 then DisplayRam.store b.toNat data c.dram else c.dram := by
  by_cases h : b ≤ 0x0F#8
  · simp only [Chip.receive, if_pos h]
  · simp only [Chip.receive, if_neg h]
    repeat' split
    all_goals rfl

/-- Receiving a transaction keeps the canonical form. -/
theorem Chip.receive_wf {c : Chip} (h : DisplayRam.wf c.dram) (bytes : List Byte) :
    DisplayRam.wf (c.receive bytes).dram := by
  cases bytes with
  | nil => exact h
  | cons b data =>
    rw [Chip.receive_dram]
    split
    · exact DisplayRam.store_wf _ _ h
    · exact h

/-- The mirror's display RAM is in canonical form after every trace. -/
theorem chipOf_wf (address : BusAddr) (trace : List BusEvent) : DisplayRam.wf (chipOf address trace).dram := by
  have key : ∀ (t : List BusEvent) (v : ChipView), DisplayRam.wf v.chip.dram →
      DisplayRam.wf (t.foldl (ChipView.event address) v).chip.dram := by
    intro t
    induction t with
    | nil => intro v h; exact h
    | cons e t ih =>
      intro v h
      rw [List.foldl_cons]
      apply ih
      cases e with
      | openBus => exact h
      | beginTx a => exact h
      | writeByte b => exact h
      | endTx =>
        unfold ChipView.event
        dsimp only
        split
        · dsimp only
          split
          · exact Chip.receive_wf h _
          · exact h
        · exact h
  exact key trace _ ⟨List.Pairwise.nil, fun x hx => absurd hx List.not_mem_nil⟩

end Sys2Proof.Machine
end

