-- ==== Sys2Proof/Laws/Decode.lean ====
section
/-! SUPPORT. The fields of a packed word are the fields it was packed from (spec/30_encoding.md R51). -/

namespace Sys2Proof

theorem Request.op_pack (op : Byte) (a b : Operand) (rsv : BitVec 7) (f : Bool) (n : Num32) :
    Request.op (Request.pack op a b rsv f n) = op := by
  apply BitVec.eq_of_getLsbD_eq
  intro k hk
  simp only [Request.op, Request.pack, BitVec.getLsbD_extractLsb', BitVec.getLsbD_append]
  grind

theorem Request.a_pack (op : Byte) (a b : Operand) (rsv : BitVec 7) (f : Bool) (n : Num32) :
    Request.a (Request.pack op a b rsv f n) = a := by
  apply BitVec.eq_of_getLsbD_eq
  intro k hk
  simp only [Request.a, Request.pack, BitVec.getLsbD_extractLsb', BitVec.getLsbD_append]
  grind

theorem Request.b_pack (op : Byte) (a b : Operand) (rsv : BitVec 7) (f : Bool) (n : Num32) :
    Request.b (Request.pack op a b rsv f n) = b := by
  apply BitVec.eq_of_getLsbD_eq
  intro k hk
  simp only [Request.b, Request.pack, BitVec.getLsbD_extractLsb', BitVec.getLsbD_append]
  grind

theorem Request.rsv_pack (op : Byte) (a b : Operand) (rsv : BitVec 7) (f : Bool) (n : Num32) :
    Request.rsv (Request.pack op a b rsv f n) = rsv := by
  apply BitVec.eq_of_getLsbD_eq
  intro k hk
  simp only [Request.rsv, Request.pack, BitVec.getLsbD_extractLsb', BitVec.getLsbD_append]
  grind

theorem Request.n_pack (op : Byte) (a b : Operand) (rsv : BitVec 7) (f : Bool) (n : Num32) :
    Request.n (Request.pack op a b rsv f n) = n := by
  apply BitVec.eq_of_getLsbD_eq
  intro k hk
  simp only [Request.n, Request.pack, BitVec.getLsbD_extractLsb', BitVec.getLsbD_append]
  grind

theorem Request.f_pack (op : Byte) (a b : Operand) (rsv : BitVec 7) (f : Bool) (n : Num32) :
    Request.f (Request.pack op a b rsv f n) = f := by
  simp only [Request.f, Request.pack, BitVec.getLsbD_append]
  simp

/-- A word is packed from its fields: no bit lies outside them (R51). -/
theorem Request.pack_fields (w : Req64) :
    Request.pack (Request.op w) (Request.a w) (Request.b w) (Request.rsv w) (Request.f w) (Request.n w) = w := by
  apply BitVec.eq_of_getLsbD_eq
  intro k hk
  simp only [Request.pack, Request.op, Request.a, Request.b, Request.rsv, Request.f, Request.n,
    BitVec.getLsbD_append, BitVec.getLsbD_extractLsb', BitVec.getLsbD_ofBool]
  by_cases hf : k = 32
  · subst hf; simp
  · grind

end Sys2Proof
end

