-- ==== Sys2Proof/Laws/State.lean ====
section
/-! SUPPORT. One lemma per field per update, so that no proof unfolds a record update. -/

namespace Sys2Proof.Machine

@[simp] theorem State.respond_buf (s : State) (ok : Bool) :
    (s.respond ok).buf = s.buf := rfl

@[simp] theorem State.respond_dispOn (s : State) (ok : Bool) :
    (s.respond ok).dispOn = s.dispOn := rfl

@[simp] theorem State.respond_blink (s : State) (ok : Bool) :
    (s.respond ok).blink = s.blink := rfl

@[simp] theorem State.respond_bright (s : State) (ok : Bool) :
    (s.respond ok).bright = s.bright := rfl

@[simp] theorem State.respond_addr (s : State) (ok : Bool) :
    (s.respond ok).addr = s.addr := rfl

@[simp] theorem State.respond_addrValid (s : State) (ok : Bool) :
    (s.respond ok).addrValid = s.addrValid := rfl

@[simp] theorem State.respond_trace (s : State) (ok : Bool) :
    (s.respond ok).trace = s.trace := rfl

@[simp] theorem State.respond_responses (s : State) (ok : Bool) :
    (s.respond ok).responses = s.responses ++ [ok] := rfl

@[simp] theorem State.respond_inputs (s : State) (ok : Bool) :
    (s.respond ok).inputs = s.inputs := rfl

@[simp] theorem State.respond_draws (s : State) (ok : Bool) :
    (s.respond ok).draws = s.draws := rfl

@[simp] theorem State.transaction_buf (s : State) (bytes : List Byte) :
    (s.transaction bytes).buf = s.buf := rfl

@[simp] theorem State.transaction_dispOn (s : State) (bytes : List Byte) :
    (s.transaction bytes).dispOn = s.dispOn := rfl

@[simp] theorem State.transaction_blink (s : State) (bytes : List Byte) :
    (s.transaction bytes).blink = s.blink := rfl

@[simp] theorem State.transaction_bright (s : State) (bytes : List Byte) :
    (s.transaction bytes).bright = s.bright := rfl

@[simp] theorem State.transaction_addr (s : State) (bytes : List Byte) :
    (s.transaction bytes).addr = s.addr := rfl

@[simp] theorem State.transaction_addrValid (s : State) (bytes : List Byte) :
    (s.transaction bytes).addrValid = s.addrValid := rfl

@[simp] theorem State.transaction_trace (s : State) (bytes : List Byte) :
    (s.transaction bytes).trace = s.trace ++ transactionEvents s.busAddr bytes := rfl

@[simp] theorem State.transaction_responses (s : State) (bytes : List Byte) :
    (s.transaction bytes).responses = s.responses := rfl

@[simp] theorem State.transaction_inputs (s : State) (bytes : List Byte) :
    (s.transaction bytes).inputs = s.inputs := rfl

@[simp] theorem State.transaction_draws (s : State) (bytes : List Byte) :
    (s.transaction bytes).draws = if s.addrValid then s.draws else s.draws + 1 := rfl

@[simp] theorem State.openBus_buf (s : State) :
    (s.openBus).buf = s.buf := rfl

@[simp] theorem State.openBus_dispOn (s : State) :
    (s.openBus).dispOn = s.dispOn := rfl

@[simp] theorem State.openBus_blink (s : State) :
    (s.openBus).blink = s.blink := rfl

@[simp] theorem State.openBus_bright (s : State) :
    (s.openBus).bright = s.bright := rfl

@[simp] theorem State.openBus_addr (s : State) :
    (s.openBus).addr = s.addr := rfl

@[simp] theorem State.openBus_addrValid (s : State) :
    (s.openBus).addrValid = s.addrValid := rfl

@[simp] theorem State.openBus_trace (s : State) :
    (s.openBus).trace = s.trace ++ [.openBus] := rfl

@[simp] theorem State.openBus_responses (s : State) :
    (s.openBus).responses = s.responses := rfl

@[simp] theorem State.openBus_inputs (s : State) :
    (s.openBus).inputs = s.inputs := rfl

@[simp] theorem State.openBus_draws (s : State) :
    (s.openBus).draws = s.draws := rfl

@[simp] theorem State.bufWrite_buf (s : State) (i : Fin 8) (v : Cell) :
    (s.bufWrite i v).buf = s.buf.set i v := rfl

@[simp] theorem State.bufWrite_dispOn (s : State) (i : Fin 8) (v : Cell) :
    (s.bufWrite i v).dispOn = s.dispOn := rfl

@[simp] theorem State.bufWrite_blink (s : State) (i : Fin 8) (v : Cell) :
    (s.bufWrite i v).blink = s.blink := rfl

@[simp] theorem State.bufWrite_bright (s : State) (i : Fin 8) (v : Cell) :
    (s.bufWrite i v).bright = s.bright := rfl

@[simp] theorem State.bufWrite_addr (s : State) (i : Fin 8) (v : Cell) :
    (s.bufWrite i v).addr = s.addr := rfl

@[simp] theorem State.bufWrite_addrValid (s : State) (i : Fin 8) (v : Cell) :
    (s.bufWrite i v).addrValid = s.addrValid := rfl

@[simp] theorem State.bufWrite_trace (s : State) (i : Fin 8) (v : Cell) :
    (s.bufWrite i v).trace = s.trace := rfl

@[simp] theorem State.bufWrite_responses (s : State) (i : Fin 8) (v : Cell) :
    (s.bufWrite i v).responses = s.responses := rfl

@[simp] theorem State.bufWrite_inputs (s : State) (i : Fin 8) (v : Cell) :
    (s.bufWrite i v).inputs = s.inputs := rfl

@[simp] theorem State.bufWrite_draws (s : State) (i : Fin 8) (v : Cell) :
    (s.bufWrite i v).draws = s.draws := rfl

@[simp] theorem State.zeroAll_buf (s : State) :
    (s.zeroAll).buf = Vector.replicate 8 0x0000#16 := rfl

@[simp] theorem State.zeroAll_dispOn (s : State) :
    (s.zeroAll).dispOn = s.dispOn := rfl

@[simp] theorem State.zeroAll_blink (s : State) :
    (s.zeroAll).blink = s.blink := rfl

@[simp] theorem State.zeroAll_bright (s : State) :
    (s.zeroAll).bright = s.bright := rfl

@[simp] theorem State.zeroAll_addr (s : State) :
    (s.zeroAll).addr = s.addr := rfl

@[simp] theorem State.zeroAll_addrValid (s : State) :
    (s.zeroAll).addrValid = s.addrValid := rfl

@[simp] theorem State.zeroAll_trace (s : State) :
    (s.zeroAll).trace = s.trace := rfl

@[simp] theorem State.zeroAll_responses (s : State) :
    (s.zeroAll).responses = s.responses := rfl

@[simp] theorem State.zeroAll_inputs (s : State) :
    (s.zeroAll).inputs = s.inputs := rfl

@[simp] theorem State.zeroAll_draws (s : State) :
    (s.zeroAll).draws = s.draws := rfl

@[simp] theorem State.present_buf (s : State) (i : HostInput) :
    (s.present i).buf = s.buf := rfl

@[simp] theorem State.present_dispOn (s : State) (i : HostInput) :
    (s.present i).dispOn = s.dispOn := rfl

@[simp] theorem State.present_blink (s : State) (i : HostInput) :
    (s.present i).blink = s.blink := rfl

@[simp] theorem State.present_bright (s : State) (i : HostInput) :
    (s.present i).bright = s.bright := rfl

@[simp] theorem State.present_addr (s : State) (i : HostInput) :
    (s.present i).addr = s.addr := rfl

@[simp] theorem State.present_addrValid (s : State) (i : HostInput) :
    (s.present i).addrValid = s.addrValid := rfl

@[simp] theorem State.present_trace (s : State) (i : HostInput) :
    (s.present i).trace = s.trace := rfl

@[simp] theorem State.present_responses (s : State) (i : HostInput) :
    (s.present i).responses = s.responses := rfl

@[simp] theorem State.present_inputs (s : State) (i : HostInput) :
    (s.present i).inputs = i :: s.inputs := rfl

@[simp] theorem State.present_draws (s : State) (i : HostInput) :
    (s.present i).draws = s.draws := rfl

@[simp] theorem State.resetEvent_buf (s : State) : s.resetEvent.buf = Vector.replicate 8 0x0000#16 := rfl

@[simp] theorem State.resetEvent_dispOn (s : State) : s.resetEvent.dispOn = false := rfl

@[simp] theorem State.resetEvent_blink (s : State) : s.resetEvent.blink = 0 := rfl

@[simp] theorem State.resetEvent_bright (s : State) : s.resetEvent.bright = 0 := rfl

@[simp] theorem State.resetEvent_addr (s : State) : s.resetEvent.addr = 0x00 := rfl

@[simp] theorem State.resetEvent_addrValid (s : State) : s.resetEvent.addrValid = false := rfl

@[simp] theorem State.resetEvent_trace (s : State) : s.resetEvent.trace = [] := rfl

@[simp] theorem State.resetEvent_responses (s : State) : s.resetEvent.responses = [] := rfl

@[simp] theorem State.resetEvent_inputs (s : State) : s.resetEvent.inputs = s.inputs := rfl

@[simp] theorem State.resetEvent_draws (s : State) : s.resetEvent.draws = s.draws := rfl

@[simp] theorem State.reset_buf : State.reset.buf = Vector.replicate 8 0x0000#16 := rfl

@[simp] theorem State.reset_dispOn : State.reset.dispOn = false := rfl

@[simp] theorem State.reset_blink : State.reset.blink = 0 := rfl

@[simp] theorem State.reset_bright : State.reset.bright = 0 := rfl

@[simp] theorem State.reset_addr : State.reset.addr = 0x00 := rfl

@[simp] theorem State.reset_addrValid : State.reset.addrValid = false := rfl

@[simp] theorem State.reset_trace : State.reset.trace = [] := rfl

@[simp] theorem State.reset_responses : State.reset.responses = [] := rfl

@[simp] theorem State.reset_inputs : State.reset.inputs = [] := rfl

@[simp] theorem State.reset_draws : State.reset.draws = 0 := rfl

theorem State.cmd_eq (s : State) (c : Byte) : s.cmd c = s.transaction [c] := rfl

theorem State.flush_eq (s : State) :
    s.flush = s.transaction (rowAddr 0 :: s.buf.toList.flatMap cellBytes) := rfl

theorem State.memWrite_eq (s : State) (a : Byte) (n : Nat) (v : BitVec (8 * n)) :
    s.memWrite a n v = s.transaction (a :: littleEndianBytes n v) := rfl

@[simp] theorem State.reject_eq (s : State) : s.reject = s.respond false := rfl

@[simp] theorem State.unassigned_eq (s : State) : s.unassigned = s.respond false := rfl

theorem State.busAddr_valid {s : State} (h : s.addrValid = true) : s.busAddr = s.addr := by
  simp [State.busAddr, h]

end Sys2Proof.Machine
end

