-- ==== Sys2Proof/Laws/Ops.lean ====
section
/-! SUPPORT. One spec lemma per shared operation: what it does to each cell, and that the buffer is all it changes.
Proofs cite these instead of unfolding the operation. -/

namespace Sys2Proof.Machine

open Sys2Proof.Safety

/-! ### The position guard and map (R40, R90) -/

theorem posCell_eq_some_iff {pos : Operand} {i : Fin 8} :
    posCell pos = some i ↔ pos.toNat ≤ 3 ∧ i.val = rawOf pos.toNat := by
  unfold posCell guardPos rawIndex rawOf
  by_cases h : pos.toNat < 4
  · by_cases h2 : pos.toNat < 2
    · simp only [h, h2, dite_true, Option.map_some, if_true, Option.some.injEq, Fin.ext_iff]
      constructor <;> intro hi <;> omega
    · simp only [h, h2, dite_true, Option.map_some, if_false, Option.some.injEq, Fin.ext_iff]
      constructor <;> intro hi <;> omega
  · simp only [h, dite_false, Option.map_none, reduceCtorEq, false_iff]
    omega

theorem posCell_eq_none_iff {pos : Operand} : posCell pos = none ↔ 3 < pos.toNat := by
  simp [posCell, guardPos]; omega

theorem mem_digitCells_iff {i : Fin 8} :
    i ∈ digitCells ↔ i.val = 0 ∨ i.val = 1 ∨ i.val = 3 ∨ i.val = 4 := by
  revert i; decide

/-- The raw index of a position is a digit cell: never the colon cell, never a reserved one (R40). -/
theorem mem_digitCells_of_rawOf {pos : Operand} {i : Fin 8} (h : pos.toNat ≤ 3 ∧ i.val = rawOf pos.toNat) :
    i ∈ digitCells := by
  rw [mem_digitCells_iff]
  unfold rawOf at h
  split at h <;> omega

/-- Two buffers with equal cells are equal. -/
theorem buf_ext {s t : State} (h : ∀ i : Fin 8, t.buf[i] = s.buf[i]) : t.buf = s.buf :=
  Vector.ext fun i hi => h ⟨i, hi⟩

theorem sameCellsBut_refl (cells : List (Fin 8)) (s : State) : SameCellsBut cells s s := fun _ _ => rfl

theorem sameCellsBut_trans {cells : List (Fin 8)} {s t u : State} (h : SameCellsBut cells s t)
    (k : SameCellsBut cells t u) : SameCellsBut cells s u := fun i hi => (k i hi).trans (h i hi)

/-! ### Operations that change the buffer alone -/

/-- Only the buffer differs. -/
def OnlyBuf (s t : State) : Prop := t = { s with buf := t.buf }

theorem OnlyBuf.refl (s : State) : OnlyBuf s s := rfl

theorem OnlyBuf.trans {s t u : State} (h : OnlyBuf s t) (k : OnlyBuf t u) : OnlyBuf s u := by
  unfold OnlyBuf at *; rw [k, h]

theorem OnlyBuf.sameConfig {s t : State} (h : OnlyBuf s t) : SameConfig s t := by
  unfold OnlyBuf at h; rw [h]; exact ⟨rfl, rfl, rfl, rfl, rfl⟩

theorem OnlyBuf.silent {s t : State} (h : OnlyBuf s t) : Silent s t := by
  unfold OnlyBuf at h; rw [h]; exact ⟨rfl, rfl⟩

theorem OnlyBuf.responses_eq {s t : State} (h : OnlyBuf s t) : t.responses = s.responses := by
  unfold OnlyBuf at h; rw [h]

theorem OnlyBuf.inputs_eq {s t : State} (h : OnlyBuf s t) : t.inputs = s.inputs := by
  unfold OnlyBuf at h; rw [h]

/-- A buffer transform followed by its result bit is a `BufferOnly` operation on the cells it writes. -/
theorem OnlyBuf.bufferOnly {s t : State} {cells : List (Fin 8)} (ok : Bool) (h : OnlyBuf s t)
    (hc : SameCellsBut cells s t) : BufferOnly ok cells s (t.respond ok) :=
  ⟨h.sameConfig, hc, h.silent, by simp [h.responses_eq], by simp [h.inputs_eq]⟩

theorem bufWrite_onlyBuf (s : State) (i : Fin 8) (v : Cell) : OnlyBuf s (s.bufWrite i v) := rfl

theorem bufWrite_getElem (s : State) (i j : Fin 8) (v : Cell) :
    (s.bufWrite i v).buf[j] = if j = i then v else s.buf[j] := by
  simp [Vector.getElem_set, Fin.ext_iff, eq_comm]

theorem putDigit_onlyBuf (s : State) (pos : Operand) (m : Mask) : OnlyBuf s (s.putDigit pos m) := by
  unfold State.putDigit; split
  · exact bufWrite_onlyBuf _ _ _
  · exact OnlyBuf.refl s

/-- R90, R91: the cell of the position takes the zero-extended mask; every other cell stays. -/
theorem putDigit_getElem (s : State) (pos : Operand) (m : Mask) (j : Fin 8) :
    (s.putDigit pos m).buf[j] =
      if pos.toNat ≤ 3 ∧ j.val = rawOf pos.toNat then m.setWidth 16 else s.buf[j] := by
  unfold State.putDigit
  cases h : posCell pos with
  | none =>
    have := posCell_eq_none_iff.1 h
    rw [if_neg (by omega)]
  | some i =>
    obtain ⟨h1, h2⟩ := posCell_eq_some_iff.1 h
    simp only [bufWrite_getElem, cellOfMask, Fin.ext_iff, h2, h1, true_and]

theorem bufWrite_sameCells (s : State) (i : Fin 8) (v : Cell) : SameCellsBut [i] s (s.bufWrite i v) := by
  intro j hj
  rw [bufWrite_getElem, if_neg (by simpa using hj)]

theorem putDigit_sameCells (s : State) (pos : Operand) (m : Mask) : SameCellsBut digitCells s (s.putDigit pos m) := by
  intro i hi
  rw [putDigit_getElem, if_neg fun h => hi (mem_digitCells_of_rawOf h)]

theorem line_onlyBuf (s : State) (m : Mask) : OnlyBuf s (s.line m) :=
  (((putDigit_onlyBuf _ _ _).trans (putDigit_onlyBuf _ _ _)).trans (putDigit_onlyBuf _ _ _)).trans
    (putDigit_onlyBuf _ _ _)

/-- The four digit cells take the zero-extended mask; every other cell stays. -/
theorem line_getElem (s : State) (m : Mask) (j : Fin 8) :
    (s.line m).buf[j] = if j ∈ digitCells then m.setWidth 16 else s.buf[j] := by
  unfold State.line
  simp only [putDigit_getElem]
  match j with
  | 0 | 1 | 2 | 3 | 4 | 5 | 6 | 7 => simp [rawOf, digitCells]

theorem line_sameCells (s : State) (m : Mask) : SameCellsBut digitCells s (s.line m) := by
  intro i hi
  rw [line_getElem, if_neg hi]

theorem clearDigitsStep_sameCells (s : State) : SameCellsBut digitCells s s.clearDigitsStep := line_sameCells s _

theorem clearDigitsStep_onlyBuf (s : State) : OnlyBuf s s.clearDigitsStep := line_onlyBuf s _

theorem clearDigitsStep_getElem (s : State) (j : Fin 8) :
    s.clearDigitsStep.buf[j] = if j ∈ digitCells then 0x0000 else s.buf[j] := line_getElem s _ j

theorem digitStep_onlyBuf (s : State) (pos value : Operand) (dot : Bool) : OnlyBuf s (s.digitStep pos value dot) :=
  putDigit_onlyBuf _ _ _

theorem digitStep_getElem (s : State) (pos value : Operand) (dot : Bool) (j : Fin 8) :
    (s.digitStep pos value dot).buf[j] =
      if pos.toNat ≤ 3 ∧ j.val = rawOf pos.toNat then (digitMask value dot).setWidth 16 else s.buf[j] :=
  putDigit_getElem _ _ _ _

theorem dotStep_onlyBuf (s : State) (pos : Operand) (dot : Bool) : OnlyBuf s (s.dotStep pos dot) := by
  unfold State.dotStep; split
  · exact bufWrite_onlyBuf _ _ _
  · exact OnlyBuf.refl s

/-- R99: bit 7 of the cell of the position is set or cleared; every other cell stays. -/
theorem dotStep_getElem (s : State) (pos : Operand) (dot : Bool) (j : Fin 8) :
    (s.dotStep pos dot).buf[j] =
      if pos.toNat ≤ 3 ∧ j.val = rawOf pos.toNat then
        (if dot then s.buf[j] ||| 0x0080 else s.buf[j] &&& 0xFF7F)
      else s.buf[j] := by
  unfold State.dotStep
  cases h : posCell pos with
  | none =>
    have := posCell_eq_none_iff.1 h
    rw [if_neg (by omega)]
  | some i =>
    obtain ⟨h1, h2⟩ := posCell_eq_some_iff.1 h
    by_cases hj : j = i
    · subst hj; simp [h1, h2]
    · rw [if_neg fun e => hj (Fin.ext (e.2.trans h2.symm))]
      exact (bufWrite_getElem _ _ _ _).trans (if_neg hj)

theorem dotStep_sameCells (s : State) (pos : Operand) (dot : Bool) :
    SameCellsBut digitCells s (s.dotStep pos dot) := by
  intro i hi
  rw [dotStep_getElem, if_neg fun h => hi (mem_digitCells_of_rawOf h)]

/-- R100: `toggleDot` is a buffer transform that inverts bit 7 of the cell of the position, then answers. -/
theorem execToggleDot_eq (pos : Operand) (s : State) :
    ∃ t : State, execToggleDot pos s = .next (t.respond true) ∧ OnlyBuf s t ∧
      ∀ j : Fin 8, t.buf[j] =
        if pos.toNat ≤ 3 ∧ j.val = rawOf pos.toNat then s.buf[j] ^^^ 0x0080 else s.buf[j] := by
  unfold execToggleDot
  cases h : posCell pos with
  | none =>
    have := posCell_eq_none_iff.1 h
    exact ⟨s, rfl, OnlyBuf.refl s, fun j => by rw [if_neg (by omega)]⟩
  | some i =>
    obtain ⟨h1, h2⟩ := posCell_eq_some_iff.1 h
    refine ⟨_, rfl, bufWrite_onlyBuf _ _ _, fun j => ?_⟩
    rw [bufWrite_getElem]
    by_cases hj : j = i
    · subst hj; simp [h1, h2]
    · rw [if_neg hj, if_neg fun e => hj (Fin.ext (e.2.trans h2.symm))]

theorem signStep_onlyBuf (s : State) (free : Nat) : OnlyBuf s (s.signStep free) := by
  unfold State.signStep; split
  · exact dotStep_onlyBuf _ _ _
  · exact putDigit_onlyBuf _ _ _

theorem signStep_sameCells (s : State) (free : Nat) : SameCellsBut digitCells s (s.signStep free) := by
  unfold State.signStep; split
  · exact dotStep_sameCells _ _ _
  · exact putDigit_sameCells _ _ _

theorem digitLoop_onlyBuf (base : Nat) (padding : Bool) (free m : Nat) (s : State) :
    OnlyBuf s (digitLoop base padding free m s).1 := by
  induction free generalizing m s with
  | zero => exact OnlyBuf.refl s
  | succ p ih =>
    unfold digitLoop
    dsimp only
    split
    · exact (digitStep_onlyBuf _ _ _ _).trans (ih _ _)
    · exact digitStep_onlyBuf _ _ _ _

theorem digitLoop_sameCells (base : Nat) (padding : Bool) (free m : Nat) (s : State) :
    SameCellsBut digitCells s (digitLoop base padding free m s).1 := by
  induction free generalizing m s with
  | zero => exact sameCellsBut_refl _ s
  | succ p ih =>
    unfold digitLoop
    dsimp only
    split
    · exact sameCellsBut_trans (putDigit_sameCells _ _ _) (ih _ _)
    · exact putDigit_sameCells _ _ _

/-! ### Digits and patterns (R96, R121) -/

/-- The pattern of a digit below 16, without the dot. -/
theorem digitMask_ofNat {r : Nat} (h : r < 16) : digitMask (BitVec.ofNat 8 r) false = segTable.getD r 0x00 := by
  have h2 : (BitVec.ofNat 8 r).toNat = r := by simp; omega
  have h3 : BitVec.ofNat 8 r ≤ Config.valueMax := by
    rw [BitVec.le_def, h2]; exact Nat.le_of_lt_succ h
  simp only [digitMask, h3, h2, if_true, maskEmpty]
  rfl

/-- R121 item 2. -/
theorem isNegative_iff (number : Num32) : isNegative number = true ↔ number.toInt < 0 := by
  rw [isNegative, BitVec.msb_eq_toInt]; simp

theorem baseAccepted_iff (base : Operand) : baseAccepted base = true ↔ 2 ≤ base.toNat ∧ base.toNat ≤ 16 := by
  simp [baseAccepted, Config.baseMin, Config.baseMax, BitVec.le_def]

theorem timeAccepted_iff (first last : Operand) :
    timeAccepted first last = true ↔ first.toNat ≤ 99 ∧ last.toNat ≤ 99 := by
  simp [timeAccepted, Config.timeMax, BitVec.le_def]

/-! ### The bus (R30, R31) -/

theorem transactionEvents_eq (a : BusAddr) (bytes : List Byte) : transactionEvents a bytes = txEvents a bytes := rfl

/-- Every transaction is one `Sends`, whatever else the two states share. -/
theorem transaction_sends (s : State) (bytes : List Byte) : Sends bytes s (s.transaction bytes) :=
  ⟨s.busAddr, fun h => ⟨State.busAddr_valid h, by simp [h]⟩, rfl⟩

/-- The sixteen data bytes of a flush, cell by cell (R71). -/
theorem flush_bytes (s : State) :
    s.buf.toList.flatMap cellBytes =
      (List.finRange 8).flatMap fun i => [s.buf[i].extractLsb' 0 8, s.buf[i].extractLsb' 8 8] := by
  have : s.buf.toList = (List.finRange 8).map fun i => s.buf[i] := by
    apply List.ext_getElem <;> simp
  rw [this, List.flatMap_map]
  rfl

end Sys2Proof.Machine
end

