-- ==== Sys2Proof/Laws/Print.lean ====
section
/-! SUPPORT. `printNumber` and `printTime` taken apart: which cases they answer in, and what the digit loop leaves
(spec/42_formatter_print.md R121 to R123). -/

namespace Sys2Proof.Machine

open Sys2Proof.Safety

/-! ### Which cases they answer in -/

/-- `printNumber` answers in one of three ways: a rejected base, an overflow, a rendered number. -/
theorem execPrintNumber_cases (number : Num32) (base : Operand) (padding : Bool) (s : State) :
    (baseAccepted base = false ∧
      execPrintNumber number base padding s = .next (s.clearDigitsStep.respond false)) ∨
    ∃ (s1 : State) (left free : Nat),
      baseAccepted base = true ∧
        digitLoop base.toNat padding 4 (magnitude number).toNat s.clearDigitsStep = (s1, left, free) ∧
        ((left ≠ 0 ∧ execPrintNumber number base padding s =
            .next ((s1.line (if isNegative number then maskBottom else maskTop)).respond false)) ∨
          (left = 0 ∧ execPrintNumber number base padding s =
            .next ((if isNegative number then s1.signStep free else s1).respond true))) := by
  cases hb : baseAccepted base with
  | false => exact .inl ⟨rfl, by simp [execPrintNumber, hb]⟩
  | true =>
    right
    rcases hl : digitLoop base.toNat padding 4 (magnitude number).toNat s.clearDigitsStep with ⟨s1, left, free⟩
    refine ⟨s1, left, free, rfl, rfl, ?_⟩
    by_cases h0 : left = 0
    · exact .inr ⟨h0, by simp [execPrintNumber, hb, hl, h0, Config.nDigits]⟩
    · exact .inl ⟨h0, by simp [execPrintNumber, hb, hl, h0, Config.nDigits]⟩

/-- `printTime` answers in one of two ways: a rejected operand, or the four digits. -/
theorem execPrintTime_cases (first last : Operand) (s : State) :
    (timeAccepted first last = false ∧ execPrintTime first last s = .next (s.clearDigitsStep.respond false)) ∨
    (timeAccepted first last = true ∧ execPrintTime first last s =
      .next (((((s.clearDigitsStep.digitStep 0 (tens first) false).digitStep 1 (units first) false).digitStep 2
        (tens last) false).digitStep 3 (units last) false).respond true)) := by
  cases hb : timeAccepted first last with
  | false => exact .inl ⟨rfl, by simp [execPrintTime, hb]⟩
  | true => exact .inr ⟨rfl, by simp [execPrintTime, hb]⟩

/-! ### The digit loop -/

/-- What the loop leaves when it starts with `p + 1` free slots: it drew `p + 1 - free` digits, at least one, the
digit of weight `base ^ j` at position `p - j`; it went on past the digit of weight `base ^ j` only for padding or
because more of the number was left; and it stopped with slots free only when nothing was left and no padding was
asked for. -/
theorem digitLoop_spec {base : Nat} (h2 : 2 ≤ base) (h16 : base ≤ 16) (padding : Bool) (p m : Nat) (hp : p ≤ 3)
    (s s' : State) (left free : Nat) (h : digitLoop base padding (p + 1) m s = (s', left, free)) :
    free ≤ p ∧ left = m / base ^ (p + 1 - free) ∧
      (free ≠ 0 → left = 0 ∧ padding = false) ∧
      (∀ j, 0 < j → j < p + 1 - free → padding = true ∨ m / base ^ j ≠ 0) ∧
      ∀ i : Fin 8, s'.buf[i] =
        if ∃ j, j < p + 1 - free ∧ i.val = rawOf (p - j) then
          (segTable.getD (digitOf m base (p - (if i.val < 2 then i.val else i.val - 1))) 0x00).setWidth 16
        else s.buf[i] := by
  have hr16 : m % base < 16 := Nat.lt_of_lt_of_le (Nat.mod_lt _ (by omega)) h16
  have hcell : ∀ i : Fin 8, (s.digitStep (BitVec.ofNat 8 p) (BitVec.ofNat 8 (m % base)) false).buf[i] =
      if i.val = rawOf p then (segTable.getD (m % base) 0x00).setWidth 16 else s.buf[i] := by
    intro i
    have hpn : (BitVec.ofNat 8 p).toNat = p := by simp; omega
    rw [digitStep_getElem, hpn, digitMask_ofNat hr16]
    simp only [hp, true_and]
  have hpos : ∀ (i : Fin 8) (q : Nat), q ≤ 3 → i.val = rawOf q → (if i.val < 2 then i.val else i.val - 1) = q := by
    intro i q hq hi
    unfold rawOf at hi
    split at hi <;> split <;> omega
  induction p generalizing m s with
  | zero =>
    simp only [digitLoop, ne_eq, not_true_eq_false, false_and, if_false, Prod.mk.injEq] at h
    obtain ⟨rfl, rfl, rfl⟩ := h
    refine ⟨Nat.le_refl _, by simp, fun h => absurd rfl h, fun j h1 h3 => by omega, fun i => ?_⟩
    rw [hcell]
    by_cases hi : i.val = rawOf 0
    · rw [if_pos hi, if_pos ⟨0, by omega, hi⟩]
      simp [digitOf]
    · rw [if_neg hi, if_neg]
      rintro ⟨j, hj, hij⟩
      obtain rfl : j = 0 := by omega
      exact hi hij
  | succ q ih =>
    rw [digitLoop] at h
    split at h
    · rename_i hgo
      have hr16' : m / base % base < 16 := Nat.lt_of_lt_of_le (Nat.mod_lt _ (by omega)) h16
      obtain ⟨i1, i2, i3, i4, i5⟩ := ih (m / base) (by omega) _ h hr16' (fun i => by
        have hpn : (BitVec.ofNat 8 q).toNat = q := by simp; omega
        rw [digitStep_getElem, hpn, digitMask_ofNat hr16']
        simp only [show q ≤ 3 by omega, true_and])
      have hdiv : ∀ j, m / base / base ^ j = m / base ^ (j + 1) := fun j => by
        rw [Nat.div_div_eq_div_mul, Nat.pow_succ, Nat.mul_comm]
      refine ⟨by omega, ?_, i3, fun j hj0 hj => ?_, fun i => ?_⟩
      · rw [i2, hdiv]
        congr 2
        omega
      · rcases Nat.eq_or_lt_of_le (show 1 ≤ j from hj0) with rfl | hj1
        · rcases hgo.2 with h | h
          · exact .inr (by simpa using h)
          · exact .inl h
        · have := i4 (j - 1) (by omega) (by omega)
          rwa [hdiv, show j - 1 + 1 = j by omega] at this
      · rw [i5 i]
        by_cases hex : ∃ j, j < q + 1 - free ∧ i.val = rawOf (q - j)
        · obtain ⟨j, hj, hij⟩ := hex
          have hex1 : ∃ j, j < q + 1 - free ∧ i.val = rawOf (q - j) := ⟨j, hj, hij⟩
          have hex2 : ∃ j, j < q + 1 + 1 - free ∧ i.val = rawOf (q + 1 - j) :=
            ⟨j + 1, by omega, by rw [hij]; congr 1; omega⟩
          rw [if_pos hex1, if_pos hex2, hpos i (q - j) (by omega) hij]
          unfold digitOf
          rw [hdiv, show q - (q - j) + 1 = q + 1 - (q - j) by omega]
        · rw [if_neg hex, hcell]
          by_cases hi : i.val = rawOf (q + 1)
          · have hex2 : ∃ j, j < q + 1 + 1 - free ∧ i.val = rawOf (q + 1 - j) := ⟨0, by omega, hi⟩
            rw [if_pos hi, if_pos hex2, hpos i (q + 1) hp hi]
            simp [digitOf]
          · rw [if_neg hi, if_neg]
            rintro ⟨j, hj, hij⟩
            rcases Nat.eq_zero_or_pos j with rfl | hj0
            · exact hi hij
            · exact hex ⟨j - 1, by omega, by rw [hij]; congr 1; omega⟩
    · rename_i hstop
      simp only [Prod.mk.injEq] at h
      obtain ⟨rfl, rfl, rfl⟩ := h
      have hone : q + 1 + 1 - (q + 1) = 1 := by omega
      refine ⟨by omega, by rw [hone, Nat.pow_one], fun _ => ?_, fun j h1 h3 => by omega, fun i => ?_⟩
      · have := not_and.1 hstop (by omega)
        rw [not_or] at this
        exact ⟨Decidable.of_not_not this.1, Bool.eq_false_iff.2 this.2⟩
      · rw [hcell]
        by_cases hi : i.val = rawOf (q + 1)
        · have hex2 : ∃ j, j < q + 1 + 1 - (q + 1) ∧ i.val = rawOf (q + 1 - j) := ⟨0, by omega, hi⟩
          rw [if_pos hi, if_pos hex2, hpos i (q + 1) hp hi]
          simp [digitOf]
        · rw [if_neg hi, if_neg]
          rintro ⟨j, hj, hij⟩
          obtain rfl : j = 0 := by omega
          exact hi hij

end Sys2Proof.Machine
end

