-- ==== Sys2Proof/Laws/Driver.lean ====
section
/-! SUPPORT. The command bytes as the chip reads them (spec/30_encoding.md R56 to R59, spec/20_memory.md R43), what
`initialize` leaves in one record, and that the drawing operations are buffer transforms. -/

namespace Sys2Proof.Machine

open Sys2Proof.Safety

/-! ### Command bytes -/

/-- A display-setup byte is none of the other commands and carries its two fields (R57). -/
theorem dsetup_range (on : Bool) (blink : BitVec 2) :
    ¬dsetup on blink ≤ 0x0F#8 ∧ dsetup on blink ≠ 0x20#8 ∧ dsetup on blink ≠ 0x21#8 ∧
      (0x80#8 ≤ dsetup on blink ∧ dsetup on blink ≤ 0x87#8) ∧ (dsetup on blink).getLsbD 0 = on ∧
        (dsetup on blink).extractLsb' 1 2 = blink := by
  revert on blink; decide

/-- A brightness byte is none of the other commands and carries its level (R58). -/
theorem brightCmd_range (level : BitVec 4) :
    ¬brightCmd level ≤ 0x0F#8 ∧ brightCmd level ≠ 0x20#8 ∧ brightCmd level ≠ 0x21#8 ∧
      ¬(0x80#8 ≤ brightCmd level ∧ brightCmd level ≤ 0x87#8) ∧
        (0xE0#8 ≤ brightCmd level ∧ brightCmd level ≤ 0xEF#8) ∧ (brightCmd level).extractLsb' 0 4 = level := by
  revert level; decide

theorem Chip.receive_dsetup (c : Chip) (on : Bool) (blink : BitVec 2) :
    c.receive [dsetup on blink] = { c with dOn := some on, dBlink := some blink } := by
  obtain ⟨h1, h2, h3, h4, h5, h6⟩ := dsetup_range on blink
  simp only [Chip.receive, h1, h2, h3, h4, h5, h6, if_true, if_false, and_self]

theorem Chip.receive_brightCmd (c : Chip) (level : BitVec 4) :
    c.receive [brightCmd level] = { c with dBright := some level } := by
  obtain ⟨h1, h2, h3, h4, h5, h6⟩ := brightCmd_range level
  simp only [Chip.receive, h1, h2, h3, h4, h5, h6, if_true, if_false, and_self]

theorem Chip.receive_oscillatorOn (c : Chip) : c.receive [cmdOscillatorOn] = { c with osc := some true } := rfl

/-- A full write's bytes stored from address 0 (R33). -/
theorem Chip.receive_rowZero (c : Chip) (data : List Byte) :
    c.receive (0x00 :: data) = { c with dram := DisplayRam.store 0 data c.dram } := rfl

/-- A colon write's bytes stored from address 4 (R36). -/
theorem Chip.receive_rowFour (c : Chip) (data : List Byte) :
    c.receive (0x04 :: data) = { c with dram := DisplayRam.store 4 data c.dram } := rfl

/-- With `ADDR` valid, one more transaction sent is one more transaction received by the chip at `ADDR`. -/
theorem chipOf_transaction {s t : State} {bytes : List Byte} (ht : t.trace = s.trace ++ txEvents s.busAddr bytes)
    (ha : t.addr = s.addr) (hv : s.addrValid = true) :
    chipOf t.addr t.trace = (chipOf s.addr s.trace).receive bytes := by
  rw [ht, ha, chipOf_append_txEvents, if_pos (State.busAddr_valid hv)]

/-! ### The cells as sent -/

/-- The bytes of a flush written out (R71). -/
theorem flush_bytes_written (s : State) :
    s.buf.toList.flatMap cellBytes =
      [s.buf[0].extractLsb' 0 8, s.buf[0].extractLsb' 8 8, s.buf[1].extractLsb' 0 8, s.buf[1].extractLsb' 8 8,
        s.buf[2].extractLsb' 0 8, s.buf[2].extractLsb' 8 8, s.buf[3].extractLsb' 0 8, s.buf[3].extractLsb' 8 8,
        s.buf[4].extractLsb' 0 8, s.buf[4].extractLsb' 8 8, s.buf[5].extractLsb' 0 8, s.buf[5].extractLsb' 8 8,
        s.buf[6].extractLsb' 0 8, s.buf[6].extractLsb' 8 8, s.buf[7].extractLsb' 0 8,
        s.buf[7].extractLsb' 8 8] := by
  rw [flush_bytes]
  rfl

/-! ### Whole operations -/

/-- What `initialize` leaves, as one record (R73). -/
theorem execInitialize_eq (address : Operand) (s : State) :
    execInitialize address s = .next
      { s with
        addr := address
        addrValid := true
        buf := Vector.replicate 8 0
        blink := 0
        bright := 15
        dispOn := true
        trace := s.trace ++ [.openBus] ++ txEvents address [cmdOscillatorOn] ++
          txEvents address (0x00 :: List.replicate 16 0) ++ txEvents address [dsetup s.dispOn 0] ++
          txEvents address [brightCmd 15] ++ txEvents address [dsetup true 0]
        responses := s.responses ++ [true] } := rfl

/-- Every drawing and printing operation is a buffer transform followed by its result bit (R109). -/
theorem exec_drawsOnly {i : Instr} (s : State) (h : drawsOnly i = true) :
    ∃ (t : State) (ok : Bool), exec i s = .next (t.respond ok) ∧ OnlyBuf s t := by
  cases i with
  | initializeBlock | setDisplayStatus | setBlinkRate | setBrightness | clearDisplay | writeDisplay | writeColon =>
    cases h
  | drawColon | toggleColon => exact ⟨_, _, rfl, bufWrite_onlyBuf _ _ _⟩
  | drawDigit | clearDigit | drawHyphen | drawOver | drawUnder => exact ⟨_, _, rfl, putDigit_onlyBuf _ _ _⟩
  | clearDigits | drawLineUpper | drawLineMiddle | drawLineLower | drawLines2 | drawLines3 =>
    exact ⟨_, _, rfl, line_onlyBuf _ _⟩
  | drawDot => exact ⟨_, _, rfl, dotStep_onlyBuf _ _ _⟩
  | toggleDot pos =>
    obtain ⟨t, he, ho, _⟩ := execToggleDot_eq pos s
    exact ⟨t, true, he, ho⟩
  | printNumber number base padding =>
    have h0 := clearDigitsStep_onlyBuf s
    rcases execPrintNumber_cases number base padding s with ⟨_, h⟩ | ⟨s1, left, free, _, hl, ⟨_, h⟩ | ⟨_, h⟩⟩
    · exact ⟨_, _, h, h0⟩
    all_goals
      have h1 := digitLoop_onlyBuf base.toNat padding 4 (magnitude number).toNat s.clearDigitsStep
      rw [hl] at h1
      refine ⟨_, _, h, ?_⟩
    · exact (h0.trans h1).trans (line_onlyBuf _ _)
    · split
      · exact (h0.trans h1).trans (signStep_onlyBuf _ _)
      · exact h0.trans h1
  | printTime first last =>
    have h0 := clearDigitsStep_onlyBuf s
    rcases execPrintTime_cases first last s with ⟨_, h⟩ | ⟨_, h⟩
    · exact ⟨_, _, h, h0⟩
    · exact ⟨_, _, h, (((h0.trans (digitStep_onlyBuf _ _ _ _)).trans (digitStep_onlyBuf _ _ _ _)).trans
        (digitStep_onlyBuf _ _ _ _)).trans (digitStep_onlyBuf _ _ _ _)⟩

end Sys2Proof.Machine
end

