-- ==== Sys2Proof/Laws/PerInstr.lean ====
section
/-! SUPPORT. A statement about every operation as syntax, one lemma per constructor: the encoder writes a
well-formed request word (spec/30_encoding.md R60), whatever the operands. -/

namespace Sys2Proof.Laws.EncodeCanonical

/-- The word of the operation has an assigned `op`, 0 in `rsv`, and 0 in every field the operation does not use. -/
def Statement (i : Instr) : Prop := wellFormedRequest (encode i) = true

/-- A packed word is well-formed when its `op` is assigned and its reserved and unused fields are 0. -/
theorem wellFormed_pack {op : Byte} {a b : Operand} {f : Bool} {n : Num32} (ho : opAssigned op = true)
    (ha : usesA op = true ∨ a = 0) (hb : usesB op = true ∨ b = 0) (hf : usesF op = true ∨ f = false)
    (hn : usesN op = true ∨ n = 0) : wellFormedRequest (Request.pack op a b 0 f n) = true := by
  simp only [wellFormedRequest, rsvZero, unusedZero, Request.op_pack, Request.a_pack, Request.b_pack,
    Request.rsv_pack, Request.f_pack, Request.n_pack, Bool.and_eq_true, Bool.or_eq_true, beq_iff_eq,
    Bool.not_eq_true']
  exact ⟨ho, trivial, ha, hb, hf, hn⟩

theorem initializeBlock (address : Operand) : Statement (.initializeBlock address) :=
  wellFormed_pack rfl (.inl rfl) (.inr rfl) (.inr rfl) (.inr rfl)

theorem setDisplayStatus (on : Bool) : Statement (.setDisplayStatus on) :=
  wellFormed_pack rfl (.inr rfl) (.inr rfl) (.inl rfl) (.inr rfl)

theorem setBlinkRate (rate : Operand) : Statement (.setBlinkRate rate) :=
  wellFormed_pack rfl (.inl rfl) (.inr rfl) (.inr rfl) (.inr rfl)

theorem setBrightness (level : Operand) : Statement (.setBrightness level) :=
  wellFormed_pack rfl (.inl rfl) (.inr rfl) (.inr rfl) (.inr rfl)

theorem clearDisplay : Statement .clearDisplay :=
  wellFormed_pack rfl (.inr rfl) (.inr rfl) (.inr rfl) (.inr rfl)

theorem writeDisplay : Statement .writeDisplay :=
  wellFormed_pack rfl (.inr rfl) (.inr rfl) (.inr rfl) (.inr rfl)

theorem writeColon : Statement .writeColon :=
  wellFormed_pack rfl (.inr rfl) (.inr rfl) (.inr rfl) (.inr rfl)

theorem drawColon (status : Bool) : Statement (.drawColon status) :=
  wellFormed_pack rfl (.inr rfl) (.inr rfl) (.inl rfl) (.inr rfl)

theorem toggleColon : Statement .toggleColon :=
  wellFormed_pack rfl (.inr rfl) (.inr rfl) (.inr rfl) (.inr rfl)

theorem drawDigit (pos value : Operand) (dot : Bool) : Statement (.drawDigit pos value dot) :=
  wellFormed_pack rfl (.inl rfl) (.inl rfl) (.inl rfl) (.inr rfl)

theorem clearDigit (pos : Operand) : Statement (.clearDigit pos) :=
  wellFormed_pack rfl (.inl rfl) (.inr rfl) (.inr rfl) (.inr rfl)

theorem clearDigits : Statement .clearDigits :=
  wellFormed_pack rfl (.inr rfl) (.inr rfl) (.inr rfl) (.inr rfl)

theorem drawDot (pos : Operand) (dot : Bool) : Statement (.drawDot pos dot) :=
  wellFormed_pack rfl (.inl rfl) (.inr rfl) (.inl rfl) (.inr rfl)

theorem toggleDot (pos : Operand) : Statement (.toggleDot pos) :=
  wellFormed_pack rfl (.inl rfl) (.inr rfl) (.inr rfl) (.inr rfl)

theorem drawHyphen (pos : Operand) : Statement (.drawHyphen pos) :=
  wellFormed_pack rfl (.inl rfl) (.inr rfl) (.inr rfl) (.inr rfl)

theorem drawOver (pos : Operand) : Statement (.drawOver pos) :=
  wellFormed_pack rfl (.inl rfl) (.inr rfl) (.inr rfl) (.inr rfl)

theorem drawUnder (pos : Operand) : Statement (.drawUnder pos) :=
  wellFormed_pack rfl (.inl rfl) (.inr rfl) (.inr rfl) (.inr rfl)

theorem drawLineUpper : Statement .drawLineUpper :=
  wellFormed_pack rfl (.inr rfl) (.inr rfl) (.inr rfl) (.inr rfl)

theorem drawLineMiddle : Statement .drawLineMiddle :=
  wellFormed_pack rfl (.inr rfl) (.inr rfl) (.inr rfl) (.inr rfl)

theorem drawLineLower : Statement .drawLineLower :=
  wellFormed_pack rfl (.inr rfl) (.inr rfl) (.inr rfl) (.inr rfl)

theorem drawLines2 : Statement .drawLines2 :=
  wellFormed_pack rfl (.inr rfl) (.inr rfl) (.inr rfl) (.inr rfl)

theorem drawLines3 : Statement .drawLines3 :=
  wellFormed_pack rfl (.inr rfl) (.inr rfl) (.inr rfl) (.inr rfl)

theorem printNumber (number : Num32) (base : Operand) (padding : Bool) : Statement (.printNumber number base padding) :=
  wellFormed_pack rfl (.inl rfl) (.inr rfl) (.inl rfl) (.inl rfl)

theorem printTime (first last : Operand) : Statement (.printTime first last) :=
  wellFormed_pack rfl (.inl rfl) (.inl rfl) (.inr rfl) (.inr rfl)

end Sys2Proof.Laws.EncodeCanonical
end

