-- ==== Sys2Proof/Machine/TextForm.lean ====
section
/-! DEFINITION. The text form of a request (spec/30_encoding.md R60): the operation name, then the operands in the
source's order, separated by commas; `#` opens a comment. No step reads it. -/

namespace Sys2Proof.Machine

/-- White space between the parts of a line (log entry 14). -/
def isBlank (c : Char) : Bool := c == ' ' || c == '\t'

/-- A text without the blanks at its two ends. -/
def trimBlanks (cs : List Char) : List Char := ((cs.dropWhile isBlank).reverse.dropWhile isBlank).reverse

/-- The parts of a text between its commas. -/
def splitCommas : List Char → List (List Char)
  | [] => [[]]
  | c :: cs =>
    match splitCommas cs with
    | [] => [[]]
    | w :: ws => if c = ',' then [] :: w :: ws else (c :: w) :: ws

/-- The value of one digit, decimal or hexadecimal. -/
def digitValue (c : Char) : Option Nat :=
  let n := c.toNat
  if 48 ≤ n ∧ n ≤ 57 then some (n - 48)
  else if 65 ≤ n ∧ n ≤ 70 then some (n - 55)
  else if 97 ≤ n ∧ n ≤ 102 then some (n - 87)
  else none

/-- The digits of a numeral folded into a value, each below the base. -/
def foldDigits (base : Nat) : Nat → List Char → Option Nat
  | acc, [] => some acc
  | acc, c :: cs =>
    match digitValue c with
    | some d => if d < base then foldDigits base (acc * base + d) cs else none
    | none => none

/-- A numeral of at least one digit. -/
def numeral (base : Nat) (cs : List Char) : Option Nat :=
  match cs with
  | [] => none
  | c :: rest => foldDigits base 0 (c :: rest)

/-- A small operand: decimal, or hexadecimal after `0x`; 0 to 255 (R60, R53). -/
def parseSmall (cs : List Char) : Option Operand :=
  let v := match cs with
    | '0' :: 'x' :: rest => numeral 16 rest
    | other => numeral 10 other
  match v with
  | some n => if n < 256 then some (BitVec.ofNat 8 n) else none
  | none => none

/-- A flag operand: `0` or `1` (R60). -/
def parseFlag (cs : List Char) : Option Bool :=
  if cs = ['0'] then some false else if cs = ['1'] then some true else none

/-- The `number` operand: decimal with an optional minus sign, -2^31 to 2^31 - 1 (R60, R53). -/
def parseNumber (cs : List Char) : Option Num32 :=
  match cs with
  | '-' :: rest =>
    match numeral 10 rest with
    | some n => if n ≤ 2 ^ 31 then some (BitVec.ofInt 32 (-(n : Int))) else none
    | none => none
  | other =>
    match numeral 10 other with
    | some n => if n < 2 ^ 31 then some (BitVec.ofNat 32 n) else none
    | none => none

/-- An operation with one small operand. -/
def small1 (f : Operand → Instr) : List (List Char) → Option Instr
  | [x] => (parseSmall x).map f
  | _ => none

/-- An operation with one flag operand. -/
def flag1 (f : Bool → Instr) : List (List Char) → Option Instr
  | [x] => (parseFlag x).map f
  | _ => none

/-- An operation without operands. -/
def plain0 (i : Instr) : List (List Char) → Option Instr
  | [] => some i
  | _ => none

/-- The operation a name and its operands write (R50, R60). -/
def parseOperation (name : String) (ops : List (List Char)) : Option Instr :=
  if name = "initialize" then small1 .initializeBlock ops
  else if name = "setDisplayStatus" then flag1 .setDisplayStatus ops
  else if name = "setBlinkRate" then small1 .setBlinkRate ops
  else if name = "setBrightness" then small1 .setBrightness ops
  else if name = "clearDisplay" then plain0 .clearDisplay ops
  else if name = "writeDisplay" then plain0 .writeDisplay ops
  else if name = "writeColon" then plain0 .writeColon ops
  else if name = "drawColon" then flag1 .drawColon ops
  else if name = "toggleColon" then plain0 .toggleColon ops
  else if name = "drawDigit" then
    match ops with
    | [p, v, d] => (parseSmall p).bind fun p => (parseSmall v).bind fun v => (parseFlag d).map (.drawDigit p v)
    | _ => none
  else if name = "clearDigit" then small1 .clearDigit ops
  else if name = "clearDigits" then plain0 .clearDigits ops
  else if name = "drawDot" then
    match ops with
    | [p, d] => (parseSmall p).bind fun p => (parseFlag d).map (.drawDot p)
    | _ => none
  else if name = "toggleDot" then small1 .toggleDot ops
  else if name = "drawHyphen" then small1 .drawHyphen ops
  else if name = "drawOver" then small1 .drawOver ops
  else if name = "drawUnder" then small1 .drawUnder ops
  else if name = "drawLineUpper" then plain0 .drawLineUpper ops
  else if name = "drawLineMiddle" then plain0 .drawLineMiddle ops
  else if name = "drawLineLower" then plain0 .drawLineLower ops
  else if name = "drawLines2" then plain0 .drawLines2 ops
  else if name = "drawLines3" then plain0 .drawLines3 ops
  else if name = "printNumber" then
    match ops with
    | [n, b, p] => (parseNumber n).bind fun n => (parseSmall b).bind fun b => (parseFlag p).map (.printNumber n b)
    | _ => none
  else if name = "printTime" then
    match ops with
    | [f, l] => (parseSmall f).bind fun f => (parseSmall l).map (.printTime f)
    | _ => none
  else none

/-- The operation one line of text requests (R60); `none` for a line that is no request. -/
def parseLine (line : List Char) : Option Instr :=
  let text := trimBlanks (line.takeWhile (· ≠ '#'))
  let name := text.takeWhile (fun c => !isBlank c)
  let rest := trimBlanks (text.dropWhile (fun c => !isBlank c))
  parseOperation (String.ofList name) (if rest = [] then [] else (splitCommas rest).map trimBlanks)

/-- The assembler: one line of text to one request word (R60). -/
def assembleLine (line : String) : Option Req64 := (parseLine line.toList).map encode

end Sys2Proof.Machine
end

