-- ==== Sys2Proof/Tests/Slice0.lean ====
section
/-! SUPPORT. Tests. Every expected result is a row of spec/95_test_vectors.md (its id stands in the comment) or a
value written out from the rule named. The witnesses at the end meet the hypotheses of the statements. -/

namespace Sys2Proof.Tests

open Sys2Proof.Machine Sys2Proof.Safety

/-! ## Helpers -/

/-- The 32 events of the boot (vector D1). -/
def bootTrace : List BusEvent :=
  [.openBus] ++ txEvents 0x70 [0x21] ++ txEvents 0x70 (0x00 :: List.replicate 16 0x00) ++ txEvents 0x70 [0x80] ++
    txEvents 0x70 [0xEF] ++ txEvents 0x70 [0x81]

/-- The start state S1. -/
def s1 : State :=
  { State.reset with dispOn := true, bright := 15, addr := 0x70, addrValid := true, trace := bootTrace }

/-- The start state S2. -/
def s2 : State :=
  { s1 with
    buf := #v[0x006D, 0x0086, 0x0002, 0x00FF, 0x0008, 0, 0, 0]
    blink := 2
    trace := bootTrace ++ txEvents 0x70 [0x85] }

/-- The state with this word presented next. -/
def presented (s : State) (w : Req64) : State := { s with inputs := [.request w] }

/-- One step on this word from `s` answers a next state that meets `p`. -/
def steps (s : State) (w : Req64) (p : State → Bool) : Bool :=
  match step (presented s w) with
  | .next t => p t
  | _ => false

/-- One step on this word draws these cells, answers `ok`, sends nothing and keeps the configuration. -/
def drawing (s : State) (w : Req64) (ok : Bool) (cells : Vector Cell 8) : Bool :=
  steps s w fun t =>
    t.buf == cells && (t.responses == [ok] && (t.trace == s.trace && (t.dispOn == s.dispOn && (t.blink == s.blink &&
      (t.bright == s.bright && (t.addr == s.addr && (t.addrValid && t.inputs == [])))))))

/-- One step on this word leaves this configuration and these cells, answers 1 and appends these events. -/
def driving (s : State) (w : Req64) (cells : Vector Cell 8) (on : Bool) (blink : BitVec 2) (bright : BitVec 4)
    (evs : List BusEvent) : Bool :=
  steps s w fun t =>
    t.buf == cells && (t.responses == [true] && (t.trace == s.trace ++ evs && (t.dispOn == on && (t.blink == blink &&
      (t.bright == bright && t.addrValid)))))

/-! ## Decoding and encoding -/

/-- R52, R51: every row's word, `op << 56` with the fields written out, decodes to the row's operation. -/
theorem test_decode_driver :
    decodeRequest 0x0070000000000000 = .ok (.initializeBlock 0x70) ∧
      decodeRequest 0x0100000100000000 = .ok (.setDisplayStatus true) ∧
      decodeRequest 0x0207000000000000 = .ok (.setBlinkRate 7) ∧
      decodeRequest 0x03FF000000000000 = .ok (.setBrightness 255) ∧
      decodeRequest 0x0400000000000000 = .ok .clearDisplay := by decide

theorem test_decode_write_colon :
    decodeRequest 0x1000000000000000 = .ok .writeDisplay ∧ decodeRequest 0x1100000000000000 = .ok .writeColon ∧
      decodeRequest 0x1200000100000000 = .ok (.drawColon true) ∧
      decodeRequest 0x1300000000000000 = .ok .toggleColon := by decide

theorem test_decode_digits :
    decodeRequest 0x14010A0000000000 = .ok (.drawDigit 1 10 false) ∧
      decodeRequest 0x1503000000000000 = .ok (.clearDigit 3) ∧
      decodeRequest 0x1600000000000000 = .ok .clearDigits ∧
      decodeRequest 0x1701000100000000 = .ok (.drawDot 1 true) ∧
      decodeRequest 0x18C8000000000000 = .ok (.toggleDot 200) := by decide

theorem test_decode_bars_lines :
    decodeRequest 0x1902000000000000 = .ok (.drawHyphen 2) ∧ decodeRequest 0x1A09000000000000 = .ok (.drawOver 9) ∧
      decodeRequest 0x1B03000000000000 = .ok (.drawUnder 3) ∧ decodeRequest 0x1C00000000000000 = .ok .drawLineUpper ∧
      decodeRequest 0x1D00000000000000 = .ok .drawLineMiddle ∧
      decodeRequest 0x1E00000000000000 = .ok .drawLineLower ∧ decodeRequest 0x1F00000000000000 = .ok .drawLines2 ∧
      decodeRequest 0x2000000000000000 = .ok .drawLines3 := by decide

/-- Q5, Q6, Q7. -/
theorem test_decode_print :
    decodeRequest 0x210A0000FFFFFF85 = .ok (.printNumber (BitVec.ofInt 32 (-123)) 10 false) ∧
      decodeRequest 0x2110000100000007 = .ok (.printNumber 7 16 true) ∧
      decodeRequest 0x22173B0000000000 = .ok (.printTime 23 59) := by decide

/-- Q2, Q3, Q4: `rsv` and unused fields are ignored. -/
theorem test_decode_ignores :
    decodeRequest 0x140207FFFFFFFFFF = .ok (.drawDigit 2 7 true) ∧
      decodeRequest 0x140207FEDEADBEEF = .ok (.drawDigit 2 7 false) ∧
      decodeRequest 0x16FFFFFFFFFFFFFF = .ok .clearDigits := by decide

/-- Q8 to Q11: the edges of the unassigned ranges. -/
theorem test_decode_unassigned :
    decodeRequest 0x0500000000000000 = .error (.unassignedOp 0x05) ∧
      decodeRequest 0x0F00000000000000 = .error (.unassignedOp 0x0F) ∧
      decodeRequest 0x2300000000000000 = .error (.unassignedOp 0x23) ∧
      decodeRequest 0xFF00000000000000 = .error (.unassignedOp 0xFF) := by decide

/-- The host's question on a table row's word: the bits as the table numbers them. -/
theorem test_table_word :
    decodeTableWord 64 0x1402070100000000 = some (.drawDigit 2 7 true) ∧
      decodeTableWord 64 0x2300000000000000 = none ∧ decodeTableWord 8 0 = some (.initializeBlock 0) := by decide

/-- R60: the three examples of the assembler, a comment, a hexadecimal operand, and a line that is no request. -/
theorem test_assembler :
    assembleLine "drawDigit 2, 7, 1" = some 0x1402070100000000 ∧
      assembleLine "printNumber -123, 10, 0" = some 0x210A0000FFFFFF85 ∧
      assembleLine "writeDisplay # send" = some 0x1000000000000000 := by decide

theorem test_assembler_edges :
    assembleLine "initialize 0x70" = some 0x0070000000000000 ∧ assembleLine "toggleDot 256" = none ∧
      assembleLine "printNumber -2147483648, 2, 0" = some 0x2102000080000000 := by decide

/-- R60, R51, R52: an ill-formed word for each check: an unassigned `op`, a set `rsv`, an unused field not 0; and a
well-formed one. -/
theorem test_wellFormed_refuses :
    opAssigned 0x05 = false ∧ wellFormedRequest 0x0500000000000000 = false ∧
      rsvZero 0x1402070300000000 = false ∧ wellFormedRequest 0x1402070300000000 = false ∧
      unusedZero 0x1601000000000000 = false ∧ wellFormedRequest 0x1601000000000000 = false := by decide

theorem test_wellFormed_refuses_each_unused_field :
    wellFormedRequest 0x1001000000000000 = false ∧ wellFormedRequest 0x1500010000000000 = false ∧
      wellFormedRequest 0x1500000100000000 = false ∧ wellFormedRequest 0x1500000000000001 = false := by decide

/-! ## Tables, map and output bytes -/

/-- R18: the table in the source's order. -/
theorem test_segTable :
    (List.range 16).map (fun v => digitMask (BitVec.ofNat 8 v) false) =
      [0x3F, 0x06, 0x5B, 0x4F, 0x66, 0x6D, 0x7D, 0x07, 0x7F, 0x6F, 0x77, 0x7C, 0x39, 0x5E, 0x79, 0x71] := by decide

/-- R5: the value of each parameter but the OPEN one. -/
theorem test_parameters :
    (Config.nCells, Config.cellW, Config.nDigits, Config.colonCell.val, Config.maskW) = (8, 16, 4, 2, 8) ∧
      (Config.blinkMax, Config.brightMax, Config.baseMin, Config.baseMax, Config.timeMax) = (3, 15, 2, 16, 99) ∧
      (Config.opW, Config.numW, Config.addrW, Config.reqW) = (8, 32, 8, 64) := by decide

/-- R19: the fixed bit constants. -/
theorem test_constants :
    maskEmpty = 0x00 ∧ maskHyphen = 0x40 ∧ maskTop = 0x01 ∧ maskBottom = 0x08 ∧ maskDot = 0x80 ∧
      maskColonLit = 0x02 ∧ maskLines3 = 0x49 := by decide

/-- R107: the three candidates of the two-line pattern. -/
theorem test_lines2 :
    lines2MaskOf .topBottom = 0x09 ∧ lines2MaskOf .topMiddle = 0x41 ∧ lines2MaskOf .middleBottom = 0x48 := by decide

/-- R40, X1: raw(0..3) = 0, 1, 3, 4; R90: no cell above 3. -/
theorem test_raw :
    posCell 0 = some 0 ∧ posCell 1 = some 1 ∧ posCell 2 = some 3 ∧ posCell 3 = some 4 ∧ posCell 4 = none ∧
      posCell 255 = none := by decide

/-- R57: the eight display-setup bytes. -/
theorem test_dsetup :
    (dsetup false 0, dsetup true 0, dsetup false 1, dsetup true 1) = (0x80, 0x81, 0x82, 0x83) ∧
      (dsetup false 2, dsetup true 2, dsetup false 3, dsetup true 3) = (0x84, 0x85, 0x86, 0x87) := by decide

/-- R58, R59. -/
theorem test_brightness_and_row_bytes :
    brightCmd 0 = 0xE0 ∧ brightCmd 5 = 0xE5 ∧ brightCmd 15 = 0xEF ∧ rowAddr 0 = 0x00 ∧ rowAddr 2 = 0x04 ∧
      rowAddr 7 = 0x0E := by decide

/-- R121 item 3: the magnitude of -2^31 and of -123. -/
theorem test_magnitude :
    magnitude 0x80000000 = 0x80000000 ∧ magnitude 0xFFFFFF85 = 123 ∧ magnitude 0x7FFFFFFF = 0x7FFFFFFF := by decide

/-! ## Driver operations -/

/-- D1. -/
theorem test_initialize_boot :
    steps State.reset 0x0070000000000000 (fun t => t == { s1 with responses := [true] }) = true := by decide

/-- D2. -/
theorem test_initialize_again :
    driving s2 0x0071000000000000 (Vector.replicate 8 0) true 0 15
      ([.openBus] ++ txEvents 0x71 [0x21] ++ txEvents 0x71 (0x00 :: List.replicate 16 0x00) ++
        txEvents 0x71 [0x81] ++ txEvents 0x71 [0xEF] ++ txEvents 0x71 [0x81]) = true := by decide

/-- D7, D8. -/
theorem test_setDisplayStatus :
    driving s2 0x0100000000000000 s2.buf false 2 15 (txEvents 0x70 [0x84]) = true ∧
      driving s2 0x0100000100000000 s2.buf true 2 15 (txEvents 0x70 [0x85]) = true := by decide

/-- D12, D13 and X10. -/
theorem test_setBlinkRate :
    driving s1 0x0203000000000000 s1.buf true 3 15 (txEvents 0x70 [0x87]) = true ∧
      driving s1 0x0204000000000000 s1.buf true 0 15 (txEvents 0x70 [0x81]) = true ∧
      driving s2 0x0207000000000000 s2.buf true 0 15 (txEvents 0x70 [0x81]) = true := by decide

/-- D16. -/
theorem test_setBlinkRate_off :
    driving { s2 with dispOn := false } 0x0203000000000000 s2.buf false 3 15 (txEvents 0x70 [0x86]) = true := by
  decide

/-- D18, D20, D21. -/
theorem test_setBrightness :
    driving s1 0x0305000000000000 s1.buf true 0 5 (txEvents 0x70 [0xE5]) = true ∧
      driving s1 0x0310000000000000 s1.buf true 0 15 (txEvents 0x70 [0xEF]) = true ∧
      driving s2 0x03FF000000000000 s2.buf true 2 15 (txEvents 0x70 [0xEF]) = true := by decide

/-- D22. -/
theorem test_clearDisplay :
    driving s2 0x0400000000000000 (Vector.replicate 8 0) true 2 15
      (txEvents 0x70 (0x00 :: List.replicate 16 0x00)) = true := by decide

/-! ## Write and colon operations -/

/-- W1. -/
theorem test_writeDisplay :
    driving s2 0x1000000000000000 s2.buf true 2 15
      (txEvents 0x70 [0x00, 0x6D, 0, 0x86, 0, 0x02, 0, 0xFF, 0, 0x08, 0, 0, 0, 0, 0, 0, 0]) = true := by decide

/-- W3, W4. -/
theorem test_writeColon :
    driving s2 0x1100000000000000 s2.buf true 2 15 (txEvents 0x70 [0x04, 0x02, 0x00]) = true ∧
      driving s1 0x1100000000000000 s1.buf true 0 15 (txEvents 0x70 [0x04, 0x00, 0x00]) = true := by decide

/-- W5, W6. -/
theorem test_drawColon :
    drawing s1 0x1200000100000000 true #v[0, 0, 0x0002, 0, 0, 0, 0, 0] = true ∧
      drawing s2 0x1200000000000000 true #v[0x006D, 0x0086, 0, 0x00FF, 0x0008, 0, 0, 0] = true := by decide

/-- W8, W9. -/
theorem test_toggleColon :
    drawing s1 0x1300000000000000 true #v[0, 0, 0x0002, 0, 0, 0, 0, 0] = true ∧
      drawing s2 0x1300000000000000 true #v[0x006D, 0x0086, 0, 0x00FF, 0x0008, 0, 0, 0] = true := by decide

/-! ## Digits, dots, bars, lines -/

/-- G2, G3, G8. -/
theorem test_drawDigit :
    drawing s2 0x14010A0000000000 true #v[0x006D, 0x0077, 0x0002, 0x00FF, 0x0008, 0, 0, 0] = true ∧
      drawing s2 0x1402070100000000 true #v[0x006D, 0x0086, 0x0002, 0x0087, 0x0008, 0, 0, 0] = true ∧
      drawing s2 0x1401C80100000000 true #v[0x006D, 0x0080, 0x0002, 0x00FF, 0x0008, 0, 0, 0] = true := by decide

/-- G4, G6, G9. -/
theorem test_drawDigit_edges :
    drawing s2 0x14030F0100000000 true #v[0x006D, 0x0086, 0x0002, 0x00FF, 0x00F1, 0, 0, 0] = true ∧
      drawing s2 0x1401100000000000 true #v[0x006D, 0, 0x0002, 0x00FF, 0x0008, 0, 0, 0] = true ∧
      drawing s2 0x1404080100000000 true s2.buf = true := by decide

/-- G14, G15. -/
theorem test_clearDigit :
    drawing s2 0x1503000000000000 true #v[0x006D, 0x0086, 0x0002, 0x00FF, 0, 0, 0, 0] = true ∧
      drawing s2 0x1504000000000000 true s2.buf = true := by decide

/-- G16. -/
theorem test_clearDigits : drawing s2 0x1600000000000000 true #v[0, 0, 0x0002, 0, 0, 0, 0, 0] = true := by decide

/-- G18, G20, G21, G23. -/
theorem test_drawDot :
    drawing s2 0x1700000100000000 true #v[0x00ED, 0x0086, 0x0002, 0x00FF, 0x0008, 0, 0, 0] = true ∧
      drawing s2 0x1701000000000000 true #v[0x006D, 0x0006, 0x0002, 0x00FF, 0x0008, 0, 0, 0] = true ∧
      drawing s2 0x1702000000000000 true #v[0x006D, 0x0086, 0x0002, 0x007F, 0x0008, 0, 0, 0] = true ∧
      drawing s2 0x1704000100000000 true s2.buf = true := by decide

/-- G27, G28, G29. -/
theorem test_toggleDot :
    drawing s2 0x1802000000000000 true #v[0x006D, 0x0086, 0x0002, 0x007F, 0x0008, 0, 0, 0] = true ∧
      drawing s2 0x1803000000000000 true #v[0x006D, 0x0086, 0x0002, 0x00FF, 0x0088, 0, 0, 0] = true ∧
      drawing s2 0x1804000000000000 true s2.buf = true := by decide

/-- G32, G34. -/
theorem test_drawHyphen :
    drawing s2 0x1902000000000000 true #v[0x006D, 0x0086, 0x0002, 0x0040, 0x0008, 0, 0, 0] = true ∧
      drawing s2 0x1904000000000000 true s2.buf = true := by decide

/-- G36, G38. -/
theorem test_drawOver :
    drawing s2 0x1A01000000000000 true #v[0x006D, 0x0001, 0x0002, 0x00FF, 0x0008, 0, 0, 0] = true ∧
      drawing s2 0x1A09000000000000 true s2.buf = true := by decide

/-- G39, G42. -/
theorem test_drawUnder :
    drawing s2 0x1B00000000000000 true #v[0x0008, 0x0086, 0x0002, 0x00FF, 0x0008, 0, 0, 0] = true ∧
      drawing s2 0x1B04000000000000 true s2.buf = true := by decide

/-- L1. -/
theorem test_drawLineUpper :
    drawing s2 0x1C00000000000000 true #v[0x0001, 0x0001, 0x0002, 0x0001, 0x0001, 0, 0, 0] = true := by decide

/-- L2. -/
theorem test_drawLineMiddle :
    drawing s2 0x1D00000000000000 true #v[0x0040, 0x0040, 0x0002, 0x0040, 0x0040, 0, 0, 0] = true := by decide

/-- L3. -/
theorem test_drawLineLower :
    drawing s2 0x1E00000000000000 true #v[0x0008, 0x0008, 0x0002, 0x0008, 0x0008, 0, 0, 0] = true := by decide

/-- L5. -/
theorem test_drawLines3 :
    drawing s2 0x2000000000000000 true #v[0x0049, 0x0049, 0x0002, 0x0049, 0x0049, 0, 0, 0] = true := by decide

/-- R107: the pattern is OPEN, so the test is that the colon cell and the reserved cells stay and `ok = 1`. -/
theorem test_drawLines2 :
    steps s2 0x1F00000000000000 (fun t => t.buf[2] == 0x0002 && (t.buf[5] == 0 && t.responses == [true])) = true := by
  decide

/-! ## printNumber and printTime -/

/-- N1, N3, N20, N26, N34. -/
theorem test_printNumber_shown :
    drawing s2 0x210A00000000007B true #v[0x0000, 0x0006, 0x0002, 0x005B, 0x004F, 0, 0, 0] = true ∧
      drawing s2 0x210A0000FFFFFB2E true #v[0x0006, 0x005B, 0x0002, 0x004F, 0x00E6, 0, 0, 0] = true ∧
      drawing s2 0x210A0000FFFFFFFB true #v[0x0000, 0x0000, 0x0002, 0x0040, 0x006D, 0, 0, 0] = true ∧
      drawing s2 0x210A0001FFFFFFF9 true #v[0x003F, 0x003F, 0x0002, 0x003F, 0x0087, 0, 0, 0] = true ∧
      drawing s2 0x211000000000ABCD true #v[0x0077, 0x007C, 0x0002, 0x0039, 0x005E, 0, 0, 0] = true := by decide

/-- N18, N25, N55, N60 and N6. -/
theorem test_printNumber_edges :
    drawing s2 0x210A000000002710 false #v[0x0001, 0x0001, 0x0002, 0x0001, 0x0001, 0, 0, 0] = true ∧
      drawing s2 0x210A0000FFFFD8F0 false #v[0x0008, 0x0008, 0x0002, 0x0008, 0x0008, 0, 0, 0] = true ∧
      drawing s2 0x210100000001869F false #v[0, 0, 0x0002, 0, 0, 0, 0, 0] = true ∧
      drawing s2 0x2110000180000000 false #v[0x0008, 0x0008, 0x0002, 0x0008, 0x0008, 0, 0, 0] = true ∧
      drawing s2 0x210A000000000000 true #v[0x0000, 0x0000, 0x0002, 0x0000, 0x003F, 0, 0, 0] = true := by decide

/-- T1, T3, T5. -/
theorem test_printTime_shown :
    drawing s2 0x22173B0000000000 true #v[0x005B, 0x004F, 0x0002, 0x006D, 0x006F, 0, 0, 0] = true ∧
      drawing s2 0x2209050000000000 true #v[0x003F, 0x006F, 0x0002, 0x003F, 0x006D, 0, 0, 0] = true ∧
      drawing s2 0x2263630000000000 true #v[0x006F, 0x006F, 0x0002, 0x006F, 0x006F, 0, 0, 0] = true := by decide

/-- T8, T12. -/
theorem test_printTime_rejected :
    drawing s2 0x2264000000000000 false #v[0, 0, 0x0002, 0, 0, 0, 0, 0] = true ∧
      drawing s2 0x2263640000000000 false #v[0, 0, 0x0002, 0, 0, 0, 0, 0] = true := by decide

/-! ## The step -/

/-- Q8: an unassigned `op` changes nothing and answers 0. -/
theorem test_unassigned : drawing s2 0x0500000000000000 false s2.buf = true := by decide

/-- R160, R161: a reset between operations. -/
theorem test_reset_event : step { s2 with inputs := [.reset] } = .next State.reset := by rfl

/-- `withFetchWord`: the very next step runs the word. -/
theorem test_withFetchWord :
    step (State.reset.withFetchWord 64 0x1402070100000000) =
      .next { State.reset with buf := #v[0, 0, 0, 0x0087, 0, 0, 0, 0], responses := [true] } := by rfl

/-- R163: before `initialize` the registers are written by the rules; nothing is said of the operand of `Begin`. -/
theorem test_before_initialize :
    steps State.reset 0x0305000000000000 (fun t => t.bright == 5 && (!t.addrValid && t.trace.length == 3)) = true := by
  decide

/-- R43, Program 1 step 4's shape on S2: the chip shows the buffer after `writeDisplay`. -/
theorem test_chip_after_writeDisplay :
    steps s2 0x1000000000000000 (fun t => (chipOf 0x70 t.trace).dram.map (fun c => c.2) ==
      [0x6D, 0, 0x86, 0, 0x02, 0, 0xFF, 0, 0x08, 0, 0, 0, 0, 0, 0, 0]) = true := by decide

/-! ## Witnesses: the hypotheses of the statements are met -/

/-- The number operand of these 32 bits has this magnitude and sign. -/
def numberIs (n : Num32) (m : Nat) (neg : Bool) : Bool := n.toInt.natAbs == m && decide (n.toInt < 0) == neg

/-- WellFormedWordIsEncodedOperation. -/
theorem witness_wellFormed :
    wellFormedRequest 0x1402070100000000 = true ∧ wellFormedRequest 0x210A0001FFFFFF85 = true ∧
      wellFormedRequest 0x2000000000000000 = true ∧ wellFormedRequest 0x0000000000000000 = true := by decide

/-- OpcodeMapSelectsRowByMask: a word for each row, other fields set. -/
theorem witness_opcodeMap :
    ([0x00, 0x01, 0x02, 0x03, 0x04, 0x10, 0x11, 0x12, 0x13, 0x14, 0x15, 0x16, 0x17, 0x18, 0x19, 0x1A, 0x1B, 0x1C,
      0x1D, 0x1E, 0x1F, 0x20, 0x21, 0x22] : List Nat).all (fun op =>
        BitVec.ofNat 64 (op * 2 ^ 56 + 0x23AA01FFFFFF85) &&& 0xFF00000000000000#64 ==
          BitVec.ofNat 64 (op * 2 ^ 56)) = true := by decide

/-- UnassignedOpChangesNothing and the last row of RejectsLeaveTheTablesState: the four edges of the two ranges. -/
theorem witness_unassigned :
    (presented s2 0x0500000000000000).inputs = [.request 0x0500000000000000] ∧
      ([0x0500000000000000, 0x0F00000000000000, 0x2300000000000000, 0xFF00000000000000] : List Req64).all (fun w =>
        decide ((0x05 ≤ (Request.op w).toNat ∧ (Request.op w).toNat ≤ 0x0F) ∨ 0x23 ≤ (Request.op w).toNat)) = true ∧
      ([0x0400000000000000, 0x1000000000000000, 0x2200000000000000] : List Req64).all (fun w =>
        !decide ((0x05 ≤ (Request.op w).toNat ∧ (Request.op w).toNat ≤ 0x0F) ∨ 0x23 ≤ (Request.op w).toNat)) =
          true := by decide

/-- UnassignedOpChangesNothing, its second half: two different words of one operation, equal in the fields used. -/
theorem witness_ignored_fields :
    Request.op 0x1402070100000000 = Request.op 0x140207FFFFFFFFFF ∧
      Request.a 0x1402070100000000 = Request.a 0x140207FFFFFFFFFF ∧
      Request.b 0x1402070100000000 = Request.b 0x140207FFFFFFFFFF ∧
      Request.f 0x1402070100000000 = Request.f 0x140207FFFFFFFFFF ∧ usesN (Request.op 0x1402070100000000) = false ∧
      (0x1402070100000000 : Req64) ≠ 0x140207FFFFFFFFFF := by decide

/-- StepRunsDecodedRequest, and the last clause of EveryRequestAnswersOneBit. -/
theorem witness_step_runs :
    (presented s2 0x1402070100000000).inputs = [.request 0x1402070100000000] ∧
      decodeRequest 0x1402070100000000 = .ok (.drawDigit 2 7 true) ∧
      decodeRequest 0x2300000000000000 = .error (.unassignedOp 0x23) := by decide

/-- StepIdlesOrResets: nothing presented, and a reset presented. -/
theorem witness_idle_and_reset :
    s2.inputs = [] ∧ ({ s2 with inputs := [.reset, .request 0] } : State).inputs = .reset :: [.request 0] := by decide

/-- Encoded: a word of each `op` that statements speak of. -/
theorem witness_encoded :
    Request.op 0x0070000000000000 = 0x00 ∧ Request.op 0x0100000100000000 = 0x01 ∧
      Request.op 0x1402070100000000 = 0x14 ∧ Request.op 0x210A0000FFFFFF85 = 0x21 ∧
      Request.op 0x22173B0000000000 = 0x22 := by decide

/-- InitializeBootsAndEmits32Events, its last clause: the transaction of 0x21 is a contiguous part of the boot's events,
and no part of one transaction of another byte. -/
theorem witness_oscillator_only_in_boot :
    txEvents 0x70 [0x21] <:+: bootTrace ∧ ¬txEvents 0x70 [0x21] <:+: txEvents 0x70 [0x85] ∧
      driving s2 0x0100000100000000 s2.buf true 2 15 (txEvents 0x70 [0x85]) = true := by decide

/-- InitializeBootsAndEmits32Events, its second half: an operation that is no `initialize`. -/
theorem witness_not_initialize : ∀ a : Byte, Instr.writeDisplay ≠ .initializeBlock a := by
  intro a h; cases h

/-- SetBlinkRateClampsStoresAndSends, SetBrightnessClampsStoresAndSends: the values where the clamps begin. -/
theorem witness_clamps :
    ¬3 < (3 : Byte).toNat ∧ 3 < (4 : Byte).toNat ∧ min (15 : Byte).toNat 15 = 15 ∧ min (16 : Byte).toNat 15 = 15 ∧
      clampRate 3 = 3 ∧ clampRate 4 = 0 ∧ clampLevel 15 = 15 ∧ clampLevel 16 = 15 := by decide

/-- BufferInv holds of S2 (WriteDisplaySendsEveryCell, WriteColonSendsColonCell, IdempotenceAndInvolution). -/
theorem witness_bufferInv : BufferInv s2 := by
  refine ⟨?_, ?_, ?_⟩ <;> decide

/-- ToggleColonFlipsColonCell: both values of the colon cell. -/
theorem witness_toggleColon : s1.buf[2] = 0x0000 ∧ s2.buf[2] = 0x0002 := by decide

/-- PositionsAboveThreeAreIgnored, and the guards of the digit statements: 3 acts, 4 and 255 do not. -/
theorem witness_positions :
    ¬3 < (3 : Byte).toNat ∧ 3 < (4 : Byte).toNat ∧ 3 < (255 : Byte).toNat ∧ (4 : Fin 8).val = rawOf (3 : Byte).toNat ∧
      (0 : Fin 8).val = rawOf (0 : Byte).toNat ∧ (3 : Fin 8).val = rawOf (2 : Byte).toNat := by decide

/-- PrintNumberRendersDigitsAndSign, its first and second cases, and RejectsLeaveTheTablesState: bases 1 and 17
rejected whatever the number, 10000, -10000 and -2^31 overflow in base 10, 65536 in base 16. -/
theorem witness_printNumber_rejects :
    (1 : Byte).toNat < 2 ∧ 16 < (17 : Byte).toNat ∧ 16 < (255 : Byte).toNat ∧ numberIs 0x2710 (10 ^ 4) false = true ∧
      numberIs 0xFFFFD8F0 (10 ^ 4) true = true ∧ numberIs 0x80000000 (2 ^ 31) true = true ∧
      numberIs 0x10000 (16 ^ 4) false = true ∧ 16 ^ 4 ≤ 2 ^ 31 := by decide

/-- Its third case, PrintNumberRange and PrintNumberShape: base 2 and 16 at the largest magnitude of either sign, one
digit, none shown left of it, and a padded negative number. -/
theorem witness_printNumber_shown :
    numberIs 15 (2 ^ 4 - 1) false = true ∧ numberIs 0xFFFFFFF1 (2 ^ 4 - 1) true = true ∧
      numberIs 0xFFFF (16 ^ 4 - 1) false = true ∧ numberIs 0xFFFF0001 (16 ^ 4 - 1) true = true ∧
      numberIs 0 0 false = true ∧ numberIs 0xFFFFFFFB 5 true = true ∧
      drawing s2 0x210200000000000F true #v[0x0006, 0x0006, 0x0002, 0x0006, 0x0006, 0, 0, 0] = true ∧
      drawing s2 0x2102000000000010 false #v[0x0001, 0x0001, 0x0002, 0x0001, 0x0001, 0, 0, 0] = true ∧
      drawing s2 0x21100000FFFF0001 true #v[0x0071, 0x0071, 0x0002, 0x0071, 0x00F1, 0, 0, 0] = true := by decide

/-- PrintNumberRendersDigitsAndSign: which digits are shown, the four combinations at weight 1 and 0 for -5, -12 and
-1234 in base 10 and a padded -7. -/
theorem witness_printNumber_digits :
    5 / 10 ^ 1 = 0 ∧ 12 / 10 ^ 1 ≠ 0 ∧ 12 / 10 ^ 2 = 0 ∧ 1234 / 10 ^ 3 ≠ 0 ∧ digitOf 1234 10 0 = 4 ∧
      digitOf 1234 10 3 = 1 ∧ (cellOfWeight 0, cellOfWeight 1, cellOfWeight 2, cellOfWeight 3) = (4, 3, 1, 0) := by
  decide

/-- PrintTimeShowsTensAndUnits and the fourth row of RejectsLeaveTheTablesState: 99 accepted, 100 rejected, either
operand. -/
theorem witness_printTime :
    ((99 : Byte).toNat ≤ 99 ∧ (99 : Byte).toNat ≤ 99) ∧ 99 < (100 : Byte).toNat ∧
      drawing s2 0x2200640000000000 false #v[0, 0, 0x0002, 0, 0, 0, 0, 0] = true ∧
      drawing s2 0x2263630000000000 true #v[0x006F, 0x006F, 0x0002, 0x006F, 0x006F, 0, 0, 0] = true := by decide

/-- EveryRequestAnswersOneBit: the reject causes at their edges (R141, R144). -/
theorem witness_rejectCause :
    rejectCause (.printNumber 0x1869F 1 false) = some .base ∧ rejectCause (.printNumber 0x2710 10 false) =
      some .overflowPositive ∧ rejectCause (.printNumber 0xFFFFD8F0 10 true) = some .overflowNegative ∧
      rejectCause (.printNumber 0x270F 10 false) = none ∧ rejectCause (.printTime 99 100) = some .time ∧
      rejectCause (.printTime 99 99) = none ∧ rejectCause (.drawDigit 4 200 true) = none := by decide

/-- EveryRequestAnswersOneBit, its second clause: an operation that is neither print. -/
theorem witness_no_print :
    (∀ n b p, Instr.drawColon true ≠ .printNumber n b p) ∧ ∀ f l, Instr.drawColon true ≠ .printTime f l := by
  constructor <;> intros <;> intro h <;> cases h

/-- DrawingOperationsStayInTheBuffer, RegistersDefinedBeforeInitialize: operations that only draw, one of them not a
colon operation. -/
theorem witness_drawsOnly :
    drawsOnly (.drawLines2) = true ∧ drawsOnly (.printNumber 1 10 false) = true ∧ drawsOnly (.drawColon true) = true ∧
      drawsOnly .writeColon = false ∧ Instr.drawLines2 ≠ .toggleColon := by decide

/-- OnlyTheTablesOperationsWrite: each register does change under an operation that may write it. -/
theorem witness_writers :
    steps s2 0x0071000000000000 (fun t => decide (t.addr ≠ s2.addr ∧ t.blink ≠ s2.blink ∧ t.buf[2] ≠ s2.buf[2])) =
        true ∧
      steps s2 0x0100000000000000 (fun t => decide (t.dispOn ≠ s2.dispOn)) = true ∧
      steps s2 0x0300000000000000 (fun t => decide (t.bright ≠ s2.bright)) = true ∧
      steps { s2 with buf := Vector.replicate 8 1 } 0x0400000000000000 (fun t => decide (t.buf[5] ≠ 1)) = true := by
  decide

/-- OnlyTheTablesOperationsWrite, its digit cells: a digit cell that changes under an operation at position 3, and what
the table allows at positions 3 and 4, of another cell, of the colon and of a configuration operation. -/
theorem witness_digit_writers :
    steps s2 0x1903000000000000 (fun t => decide (4 ∈ digitCells ∧ t.buf[4] ≠ s2.buf[4])) = true ∧
      mayWriteDigitCell (.drawHyphen 3) 4 = true ∧ mayWriteDigitCell (.drawHyphen 3) 3 = false ∧
      (∀ c, mayWriteDigitCell (.drawHyphen 4) c = false) ∧ (∀ c, mayWriteDigitCell .toggleColon c = false) ∧
      ∀ c, mayWriteDigitCell (.setBrightness 15) c = false := by decide

/-- TraceOnlyGrowsWithCurrentAddress, RetryEmitsTheSameAgain, FullWriteMakesChipShowBuffer,
ColonWriteUpdatesColonRowOnly: a state with `ADDR` valid and an event appended. -/
theorem witness_addrValid :
    s2.addrValid = true ∧ retryOp .clearDisplay = true ∧ retryOp (.setBrightness 3) = true ∧
      steps s2 0x1100000000000000 (fun t => decide (BusEvent.beginTx 0x70 ∈ t.trace.drop s2.trace.length)) = true := by
  decide

/-- OperationsEqualInEffect: the first value above the table. -/
theorem witness_equal_effect : 15 < (16 : Byte).toNat ∧ ¬15 < (15 : Byte).toNat := by decide

/-- IdempotenceAndInvolution. -/
theorem witness_idempotent :
    idempotentOp (.drawDot 3 true) = true ∧ idempotentOp .drawLines2 = true ∧ idempotentOp (.toggleDot 3) = false := by
  decide

/-- StepKeepsSystemInv: a state with a trace that meets the invariant, and a step from it. -/
theorem witness_systemInv :
    SystemInv (presented s2 0x1000000000000000) ∧
      ∃ t : State, step (presented s2 0x1000000000000000) = .next t := by
  refine ⟨⟨witness_bufferInv, [.opening, .command 0x70 0x21, .fullWrite 0x70 (List.replicate 16 0x00),
    .command 0x70 0x80, .command 0x70 0xEF, .command 0x70 0x81, .command 0x70 0x85], ?_, by rfl⟩, _, rfl⟩
  intro x hx
  simp only [List.mem_cons, List.not_mem_nil, or_false] at hx
  rcases hx with rfl | rfl | rfl | rfl | rfl | rfl | rfl
  · trivial
  · exact .inl rfl
  · exact ⟨0, 0, 0, 0, 0, rfl⟩
  · exact .inr (.inl (by decide))
  · exact .inr (.inr (by decide))
  · exact .inr (.inl (by decide))
  · exact .inr (.inl (by decide))

/-- StepKeepsMirrorInv: S2 meets the invariant with `ADDR` valid, and a step from it. -/
theorem witness_mirrorInv :
    MirrorInv (presented s2 0x0100000000000000) ∧ (presented s2 0x0100000000000000).addrValid = true ∧
      ∃ t : State, step (presented s2 0x0100000000000000) = .next t := by
  refine ⟨fun _ => ⟨by decide, by decide, by decide, by decide, by decide⟩, rfl, _, rfl⟩

/-- FullWriteMakesChipShowBuffer, its last clause: the chip shows S1's buffer. -/
theorem witness_chipShows : ChipShowsBuffer s1 ∧ s1.addrValid = true := by
  refine ⟨?_, rfl⟩
  unfold ChipShowsBuffer
  decide

end Sys2Proof.Tests
end

section
/-! SUPPORT. The bytes of a memory write (spec/00_scope.md R8), and the flush as one memory write of the whole buffer
(spec/40_driver.md R71). -/

namespace Sys2Proof.Machine

open Sys2Proof.Safety

@[simp] theorem littleEndianBytes_length (n : Nat) (v : BitVec (8 * n)) : (littleEndianBytes n v).length = n := by
  simp [littleEndianBytes]

theorem littleEndianBytes_getElem (n : Nat) (v : BitVec (8 * n)) (k : Nat)
    (hk : k < (littleEndianBytes n v).length) : (littleEndianBytes n v)[k] = v.extractLsb' (8 * k) 8 := by
  simp [littleEndianBytes]

/-- A cell joined below a value is sent before it, low byte first (R8, R34). -/
theorem littleEndianBytes_append_cell (n : Nat) (v : BitVec (8 * n)) (c : BitVec 16) :
    littleEndianBytes (n + 2) (v ++ c : BitVec (8 * n + 16)) = cellBytes c ++ littleEndianBytes n v := by
  have hlow : (v ++ c : BitVec (8 * n + 16)).extractLsb' 0 8 = cellLow c :=
    BitVec.extractLsb'_append_eq_of_add_le (by decide)
  have hhigh : (v ++ c : BitVec (8 * n + 16)).extractLsb' 8 8 = cellHigh c :=
    BitVec.extractLsb'_append_eq_of_add_le (by decide)
  have hrest (k : Nat) : (v ++ c : BitVec (8 * n + 16)).extractLsb' (8 * (k + 2)) 8 = v.extractLsb' (8 * k) 8 := by
    rw [BitVec.extractLsb'_append_eq_of_le (by omega), show 8 * (k + 2) - 16 = 8 * k by omega]
  simp [littleEndianBytes, List.range_succ_eq_map, cellBytes, hlow, hhigh, hrest]

/-- The buffer as one value, cell 0 lowest, is sent as its cells in order (R71). -/
theorem littleEndianBytes_buf (s : State) :
    littleEndianBytes 16
        (s.buf[7] ++ s.buf[6] ++ s.buf[5] ++ s.buf[4] ++ s.buf[3] ++ s.buf[2] ++ s.buf[1] ++ s.buf[0] : BitVec 128) =
      s.buf.toList.flatMap cellBytes := by
  rw [flush_bytes]
  -- Peel the lowest cell seven times; `BUF[7]` alone remains.
  iterate 7 refine (littleEndianBytes_append_cell _ _ _).trans (congrArg (cellBytes _ ++ ·) ?_)
  rfl

/-- Settles O38: a flush sends the cells in order, each as `MemWrite` sends it. -/
theorem flushIsMemWrite : Obligations.FlushIsMemWrite := by
  refine fun s => ⟨?flush, fun a n v => ?bytes⟩
  case flush =>
    rw [State.flush_eq, State.memWrite_eq, littleEndianBytes_buf]
    rfl
  case bytes =>
    exact ⟨littleEndianBytes n v, littleEndianBytes_length n v, transaction_sends s _, littleEndianBytes_getElem n v⟩

end Sys2Proof.Machine
end

section
/-! SUPPORT. Rules for the claims' own vocabulary: two properties of one outcome, and a legal trace with legal shapes
appended (spec/20_memory.md R31). -/

namespace Sys2Proof.Safety

open Sys2Proof.Machine

/-- An outcome has one next state, so two properties of it hold of the same state. -/
theorem NextWith.and {o : Host.Outcome State Fault Refusal} {P Q : State → Prop} (h : NextWith o P)
    (k : NextWith o Q) : NextWith o fun t => P t ∧ Q t := by
  obtain ⟨t, rfl, hp⟩ := h
  obtain ⟨u, he, hq⟩ := k
  cases he
  exact ⟨t, rfl, hp, hq⟩

theorem NextWith.of_eq {o : Host.Outcome State Fault Refusal} {P : State → Prop} {t : State} (h : NextWith o P)
    (ht : o = .next t) : P t := by
  obtain ⟨u, hu, hp⟩ := h
  cases ht.symm.trans hu
  exact hp

theorem traceLegal_nil : TraceLegal [] := ⟨[], nofun, rfl⟩

theorem TraceLegal.append {trace : List BusEvent} (h : TraceLegal trace) {items : List BusItem}
    (hitems : ∀ x ∈ items, x.legal) : TraceLegal (trace ++ items.flatMap BusItem.events) := by
  obtain ⟨before, hbefore, rfl⟩ := h
  exact ⟨before ++ items, List.forall_mem_append.2 ⟨hbefore, hitems⟩, List.flatMap_append.symm⟩

end Sys2Proof.Safety
end

section
/-! SUPPORT. Which cells an operation writes (spec/10_state.md R25) and what it leaves of R20 in them. -/

namespace Sys2Proof.Machine

open Sys2Proof.Safety

/-! ### Transforms that keep high bytes zero -/

/-- Only the listed cells may differ, and a cell whose high byte is zero keeps it zero (R20, R34). -/
def Draws (cells : List (Fin 8)) (s t : State) : Prop :=
  SameCellsBut cells s t ∧ ∀ j : Fin 8, cellHigh s.buf[j] = 0 → cellHigh t.buf[j] = 0

theorem Draws.refl (cells : List (Fin 8)) (s : State) : Draws cells s s := ⟨sameCellsBut_refl cells s, fun _ h => h⟩

theorem Draws.trans {cells : List (Fin 8)} {s t u : State} (h : Draws cells s t) (k : Draws cells t u) :
    Draws cells s u :=
  ⟨sameCellsBut_trans h.1 k.1, fun j hj => k.2 j (h.2 j hj)⟩

theorem Draws.mono {cells more : List (Fin 8)} {s t : State} (h : Draws cells s t) (hsub : cells ⊆ more) :
    Draws more s t :=
  ⟨fun j hj => h.1 j fun hc => hj (hsub hc), h.2⟩

@[simp] theorem cellHigh_cellOfMask (m : Mask) : cellHigh (cellOfMask m) = 0 := by
  apply BitVec.eq_of_getLsbD_eq
  intro k hk
  simp [cellHigh, cellOfMask]

/-! The dot is in the low byte (R99, R100). -/

theorem cellHigh_setDot (c : Cell) : cellHigh (c ||| 0x0080) = cellHigh c := by
  rw [cellHigh, BitVec.extractLsb'_or]
  exact BitVec.or_zero

theorem cellHigh_clearDot (c : Cell) : cellHigh (c &&& 0xFF7F) = cellHigh c := by
  rw [cellHigh, BitVec.extractLsb'_and]
  exact BitVec.and_allOnes

theorem cellHigh_invertDot (c : Cell) : cellHigh (c ^^^ 0x0080) = cellHigh c := by
  rw [cellHigh, BitVec.extractLsb'_xor]
  exact BitVec.xor_zero

theorem bufWrite_draws (s : State) (i : Fin 8) {v : Cell} (hv : cellHigh s.buf[i] = 0 → cellHigh v = 0) :
    Draws [i] s (s.bufWrite i v) := by
  refine ⟨bufWrite_sameCells s i v, fun j hj => ?_⟩
  rw [bufWrite_getElem]
  split
  next h => subst h; exact hv hj
  next => exact hj

theorem putDigit_draws (s : State) (pos : Operand) (m : Mask) : Draws (posCell pos).toList s (s.putDigit pos m) := by
  unfold State.putDigit
  cases posCell pos with
  | none => exact Draws.refl _ s
  | some i => exact bufWrite_draws s i fun _ => cellHigh_cellOfMask m

theorem dotStep_draws (s : State) (pos : Operand) (dot : Bool) : Draws (posCell pos).toList s (s.dotStep pos dot) := by
  unfold State.dotStep
  cases posCell pos with
  | none => exact Draws.refl _ s
  | some i =>
    refine bufWrite_draws s i fun h => ?_
    cases dot with
    | true => exact (cellHigh_setDot _).trans h
    | false => exact (cellHigh_clearDot _).trans h

theorem execToggleDot_draws (pos : Operand) (s : State) :
    NextWith (execToggleDot pos s) (Draws (posCell pos).toList s) := by
  unfold execToggleDot
  cases posCell pos with
  | none => exact ⟨_, rfl, Draws.refl _ s⟩
  | some i => exact ⟨_, rfl, bufWrite_draws s i fun h => (cellHigh_invertDot _).trans h⟩

/-- A position selects digit cells only (R40). -/
theorem posCell_toList_subset (pos : Operand) : (posCell pos).toList ⊆ digitCells := by
  intro i hi
  exact mem_digitCells_of_rawOf (posCell_eq_some_iff.1 (Option.mem_toList.1 hi))

theorem putDigit_drawsDigits (s : State) (pos : Operand) (m : Mask) : Draws digitCells s (s.putDigit pos m) :=
  (putDigit_draws s pos m).mono (posCell_toList_subset pos)

theorem line_draws (s : State) (m : Mask) : Draws digitCells s (s.line m) :=
  (((putDigit_drawsDigits _ _ _).trans (putDigit_drawsDigits _ _ _)).trans (putDigit_drawsDigits _ _ _)).trans
    (putDigit_drawsDigits _ _ _)

theorem digitLoop_draws (base : Nat) (padding : Bool) (free m : Nat) (s : State) :
    Draws digitCells s (digitLoop base padding free m s).1 := by
  induction free generalizing m s with
  | zero => exact Draws.refl _ s
  | succ p ih =>
    unfold digitLoop
    dsimp only
    split
    · exact (putDigit_drawsDigits _ _ _).trans (ih _ _)
    · exact putDigit_drawsDigits _ _ _

theorem signStep_draws (s : State) (free : Nat) : Draws digitCells s (s.signStep free) := by
  cases free with
  | zero => exact (dotStep_draws s 3 true).mono (posCell_toList_subset 3)
  | succ p => exact putDigit_drawsDigits _ _ _

theorem execPrintNumber_draws (number : Num32) (base : Operand) (padding : Bool) (s : State) :
    NextWith (execPrintNumber number base padding s) (Draws digitCells s) := by
  have hclear : Draws digitCells s s.clearDigitsStep := line_draws s _
  rcases execPrintNumber_cases number base padding s with ⟨_, h⟩ | ⟨s1, left, free, _, hloop, h⟩
  · exact ⟨_, h, hclear⟩
  · have hdigits : Draws digitCells s s1 := by
      have := digitLoop_draws base.toNat padding 4 (magnitude number).toNat s.clearDigitsStep
      rw [hloop] at this
      exact hclear.trans this
    rcases h with ⟨_, h⟩ | ⟨_, h⟩
    · exact ⟨_, h, hdigits.trans (line_draws s1 _)⟩
    · refine ⟨_, h, ?_⟩
      split
      · exact hdigits.trans (signStep_draws s1 free)
      · exact hdigits

theorem execPrintTime_draws (first last : Operand) (s : State) :
    NextWith (execPrintTime first last s) (Draws digitCells s) := by
  have hclear : Draws digitCells s s.clearDigitsStep := line_draws s _
  rcases execPrintTime_cases first last s with ⟨_, h⟩ | ⟨_, h⟩
  · exact ⟨_, h, hclear⟩
  · exact ⟨_, h, (((hclear.trans (putDigit_drawsDigits _ _ _)).trans (putDigit_drawsDigits _ _ _)).trans
      (putDigit_drawsDigits _ _ _)).trans (putDigit_drawsDigits _ _ _)⟩

theorem zeroAll_getElem (s : State) (j : Fin 8) : s.zeroAll.buf[j] = 0x0000 := by simp

theorem zeroAll_draws (s : State) : Draws (List.finRange 8) s s.zeroAll :=
  ⟨fun j hj => absurd (List.mem_finRange j) hj, fun j _ => by rw [zeroAll_getElem]; rfl⟩

/-! ### The cells of each operation -/

/-- The cells the column "writes" of R25 names for each operation. -/
def writtenCells : Instr → List (Fin 8)
  | .initializeBlock _ | .clearDisplay => List.finRange 8
  | .setDisplayStatus _ | .setBlinkRate _ | .setBrightness _ | .writeDisplay | .writeColon => []
  | .drawColon _ | .toggleColon => [Config.colonCell]
  | .drawDigit pos _ _ | .clearDigit pos | .drawDot pos _ | .toggleDot pos | .drawHyphen pos | .drawOver pos
  | .drawUnder pos => (posCell pos).toList
  | .clearDigits | .drawLineUpper | .drawLineMiddle | .drawLineLower | .drawLines2 | .drawLines3
  | .printNumber _ _ _ | .printTime _ _ => digitCells

/-- R25 for the buffer: every operation completes, writes only its cells, and keeps zero high bytes zero. -/
theorem exec_draws (i : Instr) (s : State) : NextWith (exec i s) (Draws (writtenCells i) s) := by
  cases i with
  | initializeBlock | clearDisplay => exact ⟨_, rfl, zeroAll_draws s⟩
  | setDisplayStatus | setBlinkRate | setBrightness | writeDisplay | writeColon => exact ⟨_, rfl, Draws.refl _ s⟩
  | drawColon | toggleColon => exact ⟨_, rfl, bufWrite_draws s _ fun _ => cellHigh_cellOfMask _⟩
  | drawDigit | clearDigit | drawHyphen | drawOver | drawUnder => exact ⟨_, rfl, putDigit_draws s _ _⟩
  | drawDot => exact ⟨_, rfl, dotStep_draws s _ _⟩
  | toggleDot pos => exact execToggleDot_draws pos s
  | clearDigits | drawLineUpper | drawLineMiddle | drawLineLower | drawLines2 | drawLines3 =>
    exact ⟨_, rfl, line_draws s _⟩
  | printNumber number base padding => exact execPrintNumber_draws number base padding s
  | printTime first last => exact execPrintTime_draws first last s

/-- Outside the digit cells only four operations write (R25). -/
theorem writtenCells_cases (i : Instr) :
    (∃ a, i = .initializeBlock a) ∨ i = .clearDisplay ∨ (writtenCells i = [Config.colonCell] ∧
      ((∃ b, i = .drawColon b) ∨ i = .toggleColon)) ∨ writtenCells i ⊆ digitCells := by
  cases i with
  | initializeBlock a => exact .inl ⟨a, rfl⟩
  | clearDisplay => exact .inr (.inl rfl)
  | drawColon b => exact .inr (.inr (.inl ⟨rfl, .inl ⟨b, rfl⟩⟩))
  | toggleColon => exact .inr (.inr (.inl ⟨rfl, .inr rfl⟩))
  | drawDigit | clearDigit | drawDot | toggleDot | drawHyphen | drawOver | drawUnder =>
    exact .inr (.inr (.inr (posCell_toList_subset _)))
  | setDisplayStatus | setBlinkRate | setBrightness | writeDisplay | writeColon =>
    exact .inr (.inr (.inr (List.nil_subset _)))
  | clearDigits | drawLineUpper | drawLineMiddle | drawLineLower | drawLines2 | drawLines3 | printNumber | printTime =>
    exact .inr (.inr (.inr (List.Subset.refl _)))

/-- The table of R25 as `mayWriteDigitCell` reads it, at the digit cells. -/
theorem mayWriteDigitCell_of_mem {i : Instr} {c : Fin 8} (hc : c ∈ digitCells) (h : c ∈ writtenCells i) :
    mayWriteDigitCell i c = true := by
  cases i with
  | drawDigit | clearDigit | drawDot | toggleDot | drawHyphen | drawOver | drawUnder =>
    exact decide_eq_true (posCell_eq_some_iff.1 (Option.mem_toList.1 h))
  | setDisplayStatus | setBlinkRate | setBrightness | writeDisplay | writeColon => exact absurd h List.not_mem_nil
  | drawColon | toggleColon =>
    obtain rfl : c = Config.colonCell := List.mem_singleton.1 h
    exact absurd hc (by decide)
  | initializeBlock | clearDisplay | clearDigits | drawLineUpper | drawLineMiddle | drawLineLower | drawLines2
  | drawLines3 | printNumber | printTime => rfl

/-! ### The buffer's invariants (R20) -/

theorem bufferInv_of_zero {t : State} (h : ∀ j : Fin 8, t.buf[j] = 0x0000) : BufferInv t :=
  ⟨fun j => by rw [h j]; rfl, ⟨h 5, h 6, h 7⟩, .inl (h 2)⟩

/-- R20 survives a transform that stays off the reserved cells and leaves the colon cell alone, dark or lit. -/
theorem Draws.bufferInv {cells : List (Fin 8)} {s t : State} (h : Draws cells s t) (hs : BufferInv s)
    (hreserved : (5 : Fin 8) ∉ cells ∧ (6 : Fin 8) ∉ cells ∧ (7 : Fin 8) ∉ cells)
    (hcolon : (2 : Fin 8) ∉ cells ∨ t.buf[2] = 0x0000 ∨ t.buf[2] = 0x0002) : BufferInv t := by
  obtain ⟨hsame, hhigh⟩ := h
  obtain ⟨h5, h6, h7⟩ := hreserved
  obtain ⟨high, ⟨z5, z6, z7⟩, colon⟩ := hs
  refine ⟨fun j => hhigh j (high j), ⟨(hsame 5 h5).trans z5, (hsame 6 h6).trans z6, (hsame 7 h7).trans z7⟩, ?_⟩
  rcases hcolon with h2 | h2
  · exact colon.imp (hsame 2 h2).trans (hsame 2 h2).trans
  · exact h2

/-- The colon operations leave the colon cell dark or lit, whatever it held (R94, R95). -/
theorem bufWrite_colon_bufferInv {s : State} (hs : BufferInv s) {m : Mask} (hm : m = maskEmpty ∨ m = maskColonLit) :
    BufferInv (s.bufWrite Config.colonCell (cellOfMask m)) := by
  refine (bufWrite_draws s _ fun _ => cellHigh_cellOfMask m).bufferInv hs (by decide) (.inr ?_)
  have hcell : (s.bufWrite Config.colonCell (cellOfMask m)).buf[Config.colonCell] = cellOfMask m := by
    rw [bufWrite_getElem, if_pos rfl]
  rcases hm with rfl | rfl
  · exact .inl hcell
  · exact .inr hcell

/-- R20 items 1 to 3: every operation keeps the buffer's invariants. -/
theorem exec_keeps_bufferInv (i : Instr) {s : State} (hs : BufferInv s) : NextWith (exec i s) BufferInv := by
  rcases writtenCells_cases i with ⟨a, rfl⟩ | rfl | ⟨_, ⟨b, rfl⟩ | rfl⟩ | hsub
  · exact ⟨_, rfl, bufferInv_of_zero (zeroAll_getElem s)⟩
  · exact ⟨_, rfl, bufferInv_of_zero (zeroAll_getElem s)⟩
  · exact ⟨_, rfl, bufWrite_colon_bufferInv hs (by cases b <;> simp)⟩
  · exact ⟨_, rfl, bufWrite_colon_bufferInv hs (by split <;> simp)⟩
  · obtain ⟨t, ht, hdraws⟩ := exec_draws i s
    exact ⟨t, ht, (hdraws.mono hsub).bufferInv hs (by decide) (.inl (by decide))⟩

end Sys2Proof.Machine
end

section
/-! SUPPORT. What each operation appends to the bus trace, as shapes of spec/20_memory.md R31, and which operation
writes which configuration register (spec/10_state.md R13 to R16, R25). -/

namespace Sys2Proof.Machine

open Sys2Proof.Safety

/-- A drawing or printing operation leaves everything but the buffer and the result bits (R38, R109). -/
theorem exec_drawsOnly_frame {i : Instr} (s : State) (h : drawsOnly i = true) :
    NextWith (exec i s) fun t => SameConfig s t ∧ t.trace = s.trace ∧ t.inputs = s.inputs := by
  obtain ⟨t, ok, he, ho⟩ := exec_drawsOnly s h
  exact ⟨_, he, ho.sameConfig, ho.silent.1, ho.inputs_eq⟩

/-! ### The trace -/

/-- The shapes an operation appends to the trace, by its request and the state before it (R31, R73 to R77, R92,
R93). -/
def emitted (s : State) : Instr → List BusItem
  | .initializeBlock a =>
    [.opening, .command a cmdOscillatorOn, .fullWrite a (List.replicate 16 0), .command a (dsetup s.dispOn 0),
      .command a (brightCmd 15), .command a (dsetup true 0)]
  | .setDisplayStatus on => [.command s.busAddr (dsetup on s.blink)]
  | .setBlinkRate rate => [.command s.busAddr (dsetup s.dispOn (clampRate rate))]
  | .setBrightness level => [.command s.busAddr (brightCmd (clampLevel level))]
  | .clearDisplay => [.fullWrite s.busAddr (List.replicate 16 0)]
  | .writeDisplay => [.fullWrite s.busAddr (s.buf.toList.flatMap cellBytes)]
  | .writeColon => [.colonWrite s.busAddr (cellLow s.buf[Config.colonCell]) (cellHigh s.buf[Config.colonCell])]
  | _ => []

theorem emitted_drawsOnly (s : State) {i : Instr} (h : drawsOnly i = true) : emitted s i = [] := by
  cases i with
  | initializeBlock | setDisplayStatus | setBlinkRate | setBrightness | clearDisplay | writeDisplay | writeColon =>
    cases h
  | _ => rfl

/-- Every operation completes and only appends its shapes to the trace. -/
theorem exec_trace (i : Instr) (s : State) :
    NextWith (exec i s) fun t => t.trace = s.trace ++ (emitted s i).flatMap BusItem.events := by
  by_cases hd : drawsOnly i = true
  · obtain ⟨t, he, _, htrace, _⟩ := exec_drawsOnly_frame s hd
    exact ⟨t, he, by simp [htrace, emitted_drawsOnly s hd]⟩
  · cases i with
    | initializeBlock a => exact ⟨_, execInitialize_eq a s, by simp [emitted, BusItem.events]⟩
    | setDisplayStatus | setBlinkRate | setBrightness | clearDisplay | writeDisplay | writeColon =>
      exact ⟨_, rfl, congrArg (s.trace ++ ·) (List.append_nil _).symm⟩
    | _ => exact absurd rfl hd

theorem beginTx_mem_txEvents {a b : BusAddr} {bytes : List Byte} :
    BusEvent.beginTx b ∈ txEvents a bytes ↔ b = a := by
  simp [txEvents]

/-- Every transaction an operation emits is addressed with `initializeBlock`'s operand, or with `ADDR` as read before
(R30, R73). -/
theorem addr_of_beginTx_mem_emitted {i : Instr} {s : State} {a : BusAddr}
    (h : BusEvent.beginTx a ∈ (emitted s i).flatMap BusItem.events) :
    i = .initializeBlock a ∨ (∀ b, i ≠ .initializeBlock b) ∧ a = s.busAddr := by
  cases i with
  | initializeBlock b =>
    simp only [emitted, BusItem.events, List.flatMap_cons, List.flatMap_nil, List.mem_append, beginTx_mem_txEvents,
      List.mem_singleton, List.not_mem_nil, reduceCtorEq, or_false, false_or, or_self] at h
    exact .inl (by rw [h])
  | setDisplayStatus | setBlinkRate | setBrightness | clearDisplay | writeDisplay | writeColon =>
    simp only [emitted, BusItem.events, List.flatMap_singleton, beginTx_mem_txEvents] at h
    exact .inr ⟨nofun, h⟩
  | _ => exact absurd h List.not_mem_nil

/-! ### The bytes of the shapes (R31) -/

theorem dsetup_legal (a : BusAddr) (on : Bool) (blink : BitVec 2) : (BusItem.command a (dsetup on blink)).legal := by
  obtain ⟨_, _, _, hrange, _⟩ := dsetup_range on blink
  exact .inr (.inl hrange)

theorem brightCmd_legal (a : BusAddr) (level : BitVec 4) : (BusItem.command a (brightCmd level)).legal := by
  obtain ⟨_, _, _, _, hrange, _⟩ := brightCmd_range level
  exact .inr (.inr hrange)

theorem zeroWrite_legal (a : BusAddr) : (BusItem.fullWrite a (List.replicate 16 0)).legal := ⟨0, 0, 0, 0, 0, rfl⟩

/-- The buffer as sent has the zero bytes of R31 where R20 says the buffer has them. -/
theorem flush_legal (a : BusAddr) {s : State} (hs : BufferInv s) :
    (BusItem.fullWrite a (s.buf.toList.flatMap cellBytes)).legal := by
  obtain ⟨high, ⟨z5, z6, z7⟩, _⟩ := hs
  have h0 : s.buf[0].extractLsb' 8 8 = 0#8 := high 0
  have h1 : s.buf[1].extractLsb' 8 8 = 0#8 := high 1
  have h2 : s.buf[2].extractLsb' 8 8 = 0#8 := high 2
  have h3 : s.buf[3].extractLsb' 8 8 = 0#8 := high 3
  have h4 : s.buf[4].extractLsb' 8 8 = 0#8 := high 4
  refine ⟨cellLow s.buf[0], cellLow s.buf[1], cellLow s.buf[2], cellLow s.buf[3], cellLow s.buf[4],
    (flush_bytes_written s).trans ?_⟩
  rw [h0, h1, h2, h3, h4, z5, z6, z7]
  rfl

/-- The colon cell as sent is 0x00 or 0x02, then 0x00 (R93). -/
theorem colonWrite_legal (a : BusAddr) {s : State} (hs : BufferInv s) :
    (BusItem.colonWrite a (cellLow s.buf[Config.colonCell]) (cellHigh s.buf[Config.colonCell])).legal := by
  obtain ⟨high, _, colon⟩ := hs
  exact ⟨colon.imp (congrArg cellLow) (congrArg cellLow), high 2⟩

/-- R31: under R20 every shape an operation emits is legal. -/
theorem emitted_legal (i : Instr) {s : State} (hs : BufferInv s) : ∀ x ∈ emitted s i, x.legal := by
  cases i with
  | initializeBlock a =>
    have hosc : (BusItem.command a cmdOscillatorOn).legal := .inl rfl
    simp only [emitted, List.forall_mem_cons]
    exact ⟨trivial, hosc, zeroWrite_legal a, dsetup_legal a _ _, brightCmd_legal a _, dsetup_legal a _ _, nofun⟩
  | setDisplayStatus | setBlinkRate => exact List.forall_mem_singleton.2 (dsetup_legal _ _ _)
  | setBrightness => exact List.forall_mem_singleton.2 (brightCmd_legal _ _)
  | clearDisplay => exact List.forall_mem_singleton.2 (zeroWrite_legal _)
  | writeDisplay => exact List.forall_mem_singleton.2 (flush_legal _ hs)
  | writeColon => exact List.forall_mem_singleton.2 (colonWrite_legal _ hs)
  | _ => exact nofun

/-! ### The configuration registers -/

/-- `initializeBlock` writes `ADDR` and makes it valid; no other operation writes either (R16, R73). -/
theorem exec_addr (i : Instr) (s : State) :
    NextWith (exec i s) fun t => i = .initializeBlock t.addr ∧ t.addrValid = true ∨
      (∀ a, i ≠ .initializeBlock a) ∧ t.addr = s.addr ∧ t.addrValid = s.addrValid := by
  by_cases hd : drawsOnly i = true
  · obtain ⟨t, he, ⟨_, _, _, haddr, hvalid⟩, _⟩ := exec_drawsOnly_frame s hd
    refine ⟨t, he, .inr ⟨?_, haddr, hvalid⟩⟩
    rintro a rfl
    cases hd
  · cases i with
    | initializeBlock a => exact ⟨_, rfl, .inl ⟨rfl, rfl⟩⟩
    | setDisplayStatus | setBlinkRate | setBrightness | clearDisplay | writeDisplay | writeColon =>
      exact ⟨_, rfl, .inr ⟨nofun, rfl, rfl⟩⟩
    | _ => exact absurd rfl hd

/-- `DISP_ON`, `BLINK` and `BRIGHT` each have one writer beside `initializeBlock`, and no operation takes a request
(R13 to R15, R25, R37). -/
theorem exec_config (i : Instr) (s : State) :
    NextWith (exec i s) fun t =>
      (t.dispOn = s.dispOn ∨ (∃ a, i = .initializeBlock a) ∨ ∃ on, i = .setDisplayStatus on) ∧
        (t.blink = s.blink ∨ (∃ a, i = .initializeBlock a) ∨ ∃ rate, i = .setBlinkRate rate) ∧
        (t.bright = s.bright ∨ (∃ a, i = .initializeBlock a) ∨ ∃ level, i = .setBrightness level) ∧
        t.inputs = s.inputs := by
  by_cases hd : drawsOnly i = true
  · obtain ⟨t, he, ⟨hdispOn, hblink, hbright, _⟩, _, hinputs⟩ := exec_drawsOnly_frame s hd
    exact ⟨t, he, .inl hdispOn, .inl hblink, .inl hbright, hinputs⟩
  · cases i with
    | initializeBlock a =>
      exact ⟨_, rfl, .inr (.inl ⟨a, rfl⟩), .inr (.inl ⟨a, rfl⟩), .inr (.inl ⟨a, rfl⟩), rfl⟩
    | setDisplayStatus on => exact ⟨_, rfl, .inr (.inr ⟨on, rfl⟩), .inl rfl, .inl rfl, rfl⟩
    | setBlinkRate rate => exact ⟨_, rfl, .inl rfl, .inr (.inr ⟨rate, rfl⟩), .inl rfl, rfl⟩
    | setBrightness level => exact ⟨_, rfl, .inl rfl, .inl rfl, .inr (.inr ⟨level, rfl⟩), rfl⟩
    | clearDisplay | writeDisplay | writeColon => exact ⟨_, rfl, .inl rfl, .inl rfl, .inl rfl, rfl⟩
    | _ => exact absurd rfl hd

end Sys2Proof.Machine
end

section
/-! SUPPORT. The statements about the state (spec/10_state.md): who writes what, what the trace gains, and the
invariants at reset and under every step. -/

namespace Sys2Proof.Machine

open Sys2Proof.Safety

/-- A step idles, takes a reset, refuses an unassigned `op`, or runs one operation (R37, R55, R151, R160). -/
theorem step_cases (s : State) :
    step s = .next s ∨ ∃ rest : List HostInput,
      step s = .next { s with inputs := rest }.resetEvent ∨
        step s = .next ({ s with inputs := rest }.respond false) ∨
        ∃ i : Instr, step s = exec i { s with inputs := rest } := by
  unfold step State.takeInput
  rcases s.inputs with _ | ⟨input, rest⟩
  · exact .inl rfl
  · refine .inr ⟨rest, ?_⟩
    cases input with
    | reset => exact .inl rfl
    | request w =>
      cases hdecode : decodeRequest w with
      | error e => exact .inr (.inl (by simp [hdecode]))
      | ok i => exact .inr (.inr ⟨i, by simp [hdecode]⟩)

/-- R20, R31: every operation keeps the invariants, because it keeps the buffer's and appends legal shapes. -/
theorem exec_keeps_systemInv (i : Instr) {s : State} (hs : SystemInv s) : NextWith (exec i s) SystemInv := by
  obtain ⟨hbuf, hlegal⟩ := hs
  obtain ⟨t, ht, hbuf', htrace⟩ := (exec_keeps_bufferInv i hbuf).and (exec_trace i s)
  exact ⟨t, ht, hbuf', htrace ▸ hlegal.append (emitted_legal i hbuf)⟩

theorem resetEvent_systemInv (s : State) : SystemInv s.resetEvent :=
  ⟨bufferInv_of_zero fun j => by simp, traceLegal_nil⟩

/-- Settles O43, by the cases of a step. -/
theorem stepKeepsSystemInv : Obligations.StepKeepsSystemInv := by
  intro s t hs ht
  rcases step_cases s with h | ⟨rest, h | h | ⟨i, h⟩⟩
  · cases h.symm.trans ht
    exact hs
  · cases h.symm.trans ht
    exact resetEvent_systemInv _
  · cases h.symm.trans ht
    exact hs
  · exact (exec_keeps_systemInv i (s := { s with inputs := rest }) hs).of_eq (h.symm.trans ht)

/-- Settles O35, from the cells each operation writes and the registers it leaves. -/
theorem onlyTheTablesOperationsWrite : Obligations.OnlyTheTablesOperationsWrite := by
  intro i s
  obtain ⟨t, ht, ⟨hsame, _⟩, haddr, hdispOn, hblink, hbright, hinputs⟩ :=
    (exec_draws i s).and ((exec_addr i s).and (exec_config i s))
  have written {c : Fin 8} (h : t.buf[c] ≠ s.buf[c]) : c ∈ writtenCells i := not_imp_comm.1 (hsame c) h
  have hreserved {c : Fin 8} (hc : c ≠ 2 ∧ c ∉ digitCells) (h : t.buf[c] ≠ s.buf[c]) :
      (∃ a, i = .initializeBlock a) ∨ i = .clearDisplay := by
    rcases writtenCells_cases i with h' | h' | ⟨h', _⟩ | h'
    · exact .inl h'
    · exact .inr h'
    · exact absurd (List.mem_singleton.1 (h' ▸ written h)) hc.1
    · exact absurd (h' (written h)) hc.2
  refine ⟨t, ht, ?addr, hdispOn.resolve_left, hblink.resolve_left, hbright.resolve_left, ?colon, ?reserved,
    fun c hc h => mayWriteDigitCell_of_mem hc (written h), ?valid, hinputs⟩
  case addr =>
    rcases haddr with ⟨hi, _⟩ | ⟨_, ha, hv⟩
    · exact fun _ => ⟨t.addr, hi⟩
    · exact fun h => absurd h (by simp [ha, hv])
  case colon =>
    intro h
    rcases writtenCells_cases i with h' | h' | ⟨_, h'⟩ | h'
    · exact .inl h'
    · exact .inr (.inl h')
    · exact .inr (.inr h')
    · exact absurd (h' (written (c := 2) h)) (by decide)
  case reserved =>
    rintro (h | h | h)
    · exact hreserved (c := 5) (by decide) h
    · exact hreserved (c := 6) (by decide) h
    · exact hreserved (c := 7) (by decide) h
  case valid =>
    rcases haddr with ⟨_, hv⟩ | ⟨_, _, hv⟩
    · exact fun _ => hv
    · exact fun h => hv.trans h

/-- Settles O36, from the shapes each operation emits and the address it sends them to. -/
theorem traceOnlyGrowsWithCurrentAddress : Obligations.TraceOnlyGrowsWithCurrentAddress := by
  intro i s
  obtain ⟨t, ht, htrace, haddr⟩ := (exec_trace i s).and (exec_addr i s)
  refine ⟨t, ht, _, htrace, fun hvalid a ha => ?_⟩
  rcases haddr, addr_of_beginTx_mem_emitted ha with ⟨⟨rfl, _⟩ | ⟨hi, haddr, hv⟩, h | ⟨hi', hbus⟩⟩
  · cases h
    rfl
  · exact absurd rfl (hi' _)
  · exact absurd h (hi a)
  · rw [hbus, State.busAddr_valid (hv ▸ hvalid), haddr]

/-- Settles O44, as the reset state is the reset event's of itself. -/
theorem resetMeetsSystemInv : Obligations.ResetMeetsSystemInv := resetEvent_systemInv State.reset

/-- Settles O8, from the fields of the reset state and the mirror of the empty trace. -/
theorem resetLeavesRegistersZero : Obligations.ResetLeavesRegistersZero := by
  refine ⟨fun i => ?_, State.reset_dispOn, State.reset_blink, State.reset_bright, State.reset_addrValid,
    State.reset_trace, fun a => chipOf_nil a⟩
  simp

/-- Settles O46: `ADDR` is not valid at reset, so nothing is claimed of the chip. -/
theorem resetMeetsMirrorInv : Obligations.ResetMeetsMirrorInv :=
  fun hvalid => Bool.noConfusion (State.reset_addrValid.symm.trans hvalid)

end Sys2Proof.Machine
end

section
/-! SUPPORT. What the chip at one address makes of the shapes of spec/20_memory.md R31 (R43), and so of one
operation. -/

namespace Sys2Proof.Safety

open Sys2Proof.Machine

theorem NextWith.mono {o : Host.Outcome State Fault Refusal} {P Q : State → Prop} (h : NextWith o P)
    (hpq : ∀ t, P t → Q t) : NextWith o Q := by
  obtain ⟨t, ho, hp⟩ := h
  exact ⟨t, ho, hpq t hp⟩

/-- The chip at `address` after a shape: it receives the bytes sent to it, and sees nothing else (R43). -/
def BusItem.deliver (address : BusAddr) (c : Chip) : BusItem → Chip
  | .opening => c
  | .command a b => if a = address then c.receive [b] else c
  | .fullWrite a data => if a = address then c.receive (0x00 :: data) else c
  | .colonWrite a d0 d1 => if a = address then c.receive [0x04, d0, d1] else c

theorem chipOf_append_events (address : BusAddr) (trace : List BusEvent) (x : BusItem) :
    chipOf address (trace ++ x.events) = x.deliver address (chipOf address trace) := by
  cases x with
  | opening => exact chipOf_append_openBus address trace
  | command | fullWrite | colonWrite => exact chipOf_append_txEvents address _ _ trace

/-- Shapes appended to a trace are delivered one after another. -/
theorem chipOf_append_items (address : BusAddr) (trace : List BusEvent) (items : List BusItem) :
    chipOf address (trace ++ items.flatMap BusItem.events) =
      items.foldl (BusItem.deliver address) (chipOf address trace) := by
  induction items generalizing trace with
  | nil => simp
  | cons x items ih => rw [List.flatMap_cons, ← List.append_assoc, ih, chipOf_append_events, List.foldl_cons]

/-! Each shape delivered to the chip it is addressed to. -/

@[simp] theorem deliver_opening (address : BusAddr) (c : Chip) : BusItem.opening.deliver address c = c := rfl

@[simp] theorem deliver_oscillatorOn (a : BusAddr) (c : Chip) :
    (BusItem.command a cmdOscillatorOn).deliver a c = { c with osc := some true } :=
  (if_pos rfl).trans (Chip.receive_oscillatorOn c)

@[simp] theorem deliver_dsetup (a : BusAddr) (c : Chip) (on : Bool) (blink : BitVec 2) :
    (BusItem.command a (dsetup on blink)).deliver a c = { c with dOn := some on, dBlink := some blink } :=
  (if_pos rfl).trans (Chip.receive_dsetup c on blink)

@[simp] theorem deliver_brightCmd (a : BusAddr) (c : Chip) (level : BitVec 4) :
    (BusItem.command a (brightCmd level)).deliver a c = { c with dBright := some level } :=
  (if_pos rfl).trans (Chip.receive_brightCmd c level)

@[simp] theorem deliver_fullWrite (a : BusAddr) (c : Chip) (data : List Byte) :
    (BusItem.fullWrite a data).deliver a c = { c with dram := DisplayRam.store 0 data c.dram } :=
  (if_pos rfl).trans (Chip.receive_rowZero c data)

@[simp] theorem deliver_colonWrite (a : BusAddr) (c : Chip) (d0 d1 : Byte) :
    (BusItem.colonWrite a d0 d1).deliver a c = { c with dram := DisplayRam.store 4 [d0, d1] c.dram } :=
  (if_pos rfl).trans (Chip.receive_rowFour c [d0, d1])

end Sys2Proof.Safety

namespace Sys2Proof.Machine

open Sys2Proof.Safety

/-- What one operation does to every chip on the bus (R43). -/
theorem exec_chip (i : Instr) (s : State) :
    NextWith (exec i s) fun t => ∀ address,
      chipOf address t.trace = (emitted s i).foldl (BusItem.deliver address) (chipOf address s.trace) :=
  (exec_trace i s).mono fun t ht address => by rw [ht, chipOf_append_items]

/-- `initializeBlock a` sets every register of the chip at `a` and stores 16 zero bytes over its display RAM, whatever
the chip held before (R43, R162). -/
theorem initialize_chip (a : Operand) (s : State) :
    NextWith (exec (.initializeBlock a) s) fun t =>
      chipOf a t.trace = ⟨DisplayRam.store 0 (List.replicate 16 0) (chipOf a s.trace).dram, some true, some true,
        some 0, some 15⟩ :=
  (exec_chip _ s).mono fun t ht => by simp [ht, emitted]

/-- `writeColon` stores the colon cell at row 2 of the chip's display RAM and does nothing else to it (R36, R38). -/
theorem writeColon_chip {s : State} (hv : s.addrValid = true) :
    NextWith (exec .writeColon s) fun t =>
      chipOf s.addr t.trace = { chipOf s.addr s.trace with
        dram := DisplayRam.store 4 (cellBytes s.buf[2]) (chipOf s.addr s.trace).dram } :=
  (exec_chip _ s).mono fun t ht => by simp [ht, emitted, State.busAddr_valid hv, cellBytes]

end Sys2Proof.Machine
end

section
/-! SUPPORT. When the chip shows the buffer (spec/20_memory.md R33, R38), and what a repeated operation does (R36). -/

namespace Sys2Proof.Machine

open Sys2Proof.Safety

/-- The cells stored from address 0 are read back byte for byte (R33). -/
theorem DisplayRam.read_store_cells (s : State) (m : DisplayRam) (j : Fin 8) :
    DisplayRam.read (DisplayRam.store 0 (s.buf.toList.flatMap cellBytes) m) (2 * j.val) = some (cellLow s.buf[j]) ∧
      DisplayRam.read (DisplayRam.store 0 (s.buf.toList.flatMap cellBytes) m) (2 * j.val + 1) =
        some (cellHigh s.buf[j]) := by
  rw [flush_bytes_written, DisplayRam.read_store, DisplayRam.read_store]
  match j with
  | 0 | 1 | 2 | 3 | 4 | 5 | 6 | 7 => exact ⟨rfl, rfl⟩

/-- One cell stored at row 2 is read back there, and every other address keeps its byte (R36). -/
theorem DisplayRam.read_store_rowTwo (c : Cell) (m : DisplayRam) (a : Nat) :
    DisplayRam.read (DisplayRam.store 4 (cellBytes c) m) a =
      if a = 4 then some (cellLow c) else if a = 5 then some (cellHigh c) else DisplayRam.read m a := by
  rw [cellBytes, DisplayRam.store, DisplayRam.store, DisplayRam.store, if_pos (by decide), if_pos (by decide),
    DisplayRam.read_write, DisplayRam.read_write]
  by_cases h4 : a = 4
  · subst h4; rfl
  · rw [if_neg h4, if_neg h4]

theorem chipShowsBuffer_of_store {t : State} {m : DisplayRam}
    (h : (chipOf t.addr t.trace).dram = DisplayRam.store 0 (t.buf.toList.flatMap cellBytes) m) : ChipShowsBuffer t := by
  intro j
  rw [h]
  exact DisplayRam.read_store_cells t m j

theorem chipShowsBuffer_of_dram_eq {s t : State} (hs : ChipShowsBuffer s) (hbuf : t.buf = s.buf)
    (hdram : (chipOf t.addr t.trace).dram = (chipOf s.addr s.trace).dram) : ChipShowsBuffer t := by
  intro j
  rw [hbuf, hdram]
  exact hs j

/-- An operation other than `initializeBlock` leaves `ADDR` (R16). -/
theorem exec_addr_eq {i : Instr} (hi : ∀ a, i ≠ .initializeBlock a) (s : State) :
    NextWith (exec i s) fun t => t.addr = s.addr ∧ t.addrValid = s.addrValid :=
  (exec_addr i s).mono fun _ ht => (ht.resolve_left fun h => hi _ h.1).2

/-! ### The full writes -/

theorem writeDisplay_chipShowsBuffer {s : State} (hv : s.addrValid = true) :
    NextWith (exec .writeDisplay s) ChipShowsBuffer := by
  refine ⟨_, rfl, chipShowsBuffer_of_store (m := (chipOf s.addr s.trace).dram) ?_⟩
  rw [(exec_chip .writeDisplay s).of_eq rfl]
  simp [emitted, State.busAddr_valid hv, State.flush_eq]

/-- The bytes `clearDisplay` and `initializeBlock` send are those of the zeroed buffer (R71, R77). -/
theorem zeroAll_bytes (s : State) : s.zeroAll.buf.toList.flatMap cellBytes = List.replicate 16 0 := rfl

theorem clearDisplay_chipShowsBuffer {s : State} (hv : s.addrValid = true) :
    NextWith (exec .clearDisplay s) ChipShowsBuffer := by
  refine ⟨_, rfl, chipShowsBuffer_of_store (m := (chipOf s.addr s.trace).dram) ?_⟩
  rw [(exec_chip .clearDisplay s).of_eq rfl, State.respond_buf, State.flush_eq, State.transaction_buf, zeroAll_bytes]
  simp [emitted, State.busAddr_valid hv]

theorem initialize_chipShowsBuffer (a : Operand) (s : State) :
    NextWith (exec (.initializeBlock a) s) ChipShowsBuffer := by
  have hregisters : NextWith (exec (.initializeBlock a) s) fun t => t.addr = a ∧ t.buf = s.zeroAll.buf :=
    ⟨_, rfl, rfl, rfl⟩
  refine ((initialize_chip a s).and hregisters).mono fun t ⟨hchip, haddr, hbuf⟩ => ?_
  apply chipShowsBuffer_of_store (m := (chipOf a s.trace).dram)
  rw [haddr, hchip, hbuf, zeroAll_bytes]

/-! ### Keeping what the chip shows -/

theorem writeColon_keeps_chipShowsBuffer {s : State} (hv : s.addrValid = true) (hs : ChipShowsBuffer s) :
    NextWith (exec .writeColon s) ChipShowsBuffer := by
  refine ⟨_, rfl, fun j => ?_⟩
  show (chipOf s.addr _).dram.read _ = _ ∧ (chipOf s.addr _).dram.read _ = _
  rw [(writeColon_chip hv).of_eq rfl]
  simp only [DisplayRam.read_store_rowTwo]
  by_cases hj : j = 2
  · subst hj
    exact ⟨rfl, rfl⟩
  · have hne : j.val ≠ 2 := fun h => hj (Fin.ext h)
    rw [if_neg (by omega), if_neg (by omega), if_neg (by omega), if_neg (by omega)]
    exact hs j

/-- The operations that send no bytes for display RAM: those that draw, and the three configuration operations. -/
theorem exec_keeps_dram {i : Instr} {s : State} (hv : s.addrValid = true)
    (hi : drawsOnly i = true ∨ (∃ on, i = .setDisplayStatus on) ∨ (∃ rate, i = .setBlinkRate rate) ∨
      ∃ level, i = .setBrightness level) :
    NextWith (exec i s) fun t => (chipOf t.addr t.trace).dram = (chipOf s.addr s.trace).dram := by
  have hne : ∀ a, i ≠ .initializeBlock a := by
    rintro a rfl
    simp [drawsOnly] at hi
  refine ((exec_chip i s).and (exec_addr_eq hne s)).mono fun t ⟨hchip, haddr, _⟩ => ?_
  rw [hchip, haddr]
  rcases hi with hdraws | ⟨_, rfl⟩ | ⟨_, rfl⟩ | ⟨_, rfl⟩
  · rw [emitted_drawsOnly s hdraws, List.foldl_nil]
  all_goals simp [emitted, State.busAddr_valid hv]

/-! ### Requesting an operation again -/

/-- Requested again, an operation of R36 finds the registers it reads as it found them before, so it emits the same
shapes. -/
theorem exec_retry_emitted {i : Instr} {s : State} (hi : retryOp i = true) (hv : s.addrValid = true) :
    NextWith (exec i s) fun t => emitted t i = emitted s i := by
  have hne : ∀ a, i ≠ .initializeBlock a := by
    rintro a rfl
    cases hi
  obtain ⟨t, ht, haddr, hvalid⟩ := exec_addr_eq hne s
  have hbus : t.busAddr = s.busAddr := by
    rw [State.busAddr_valid hv, State.busAddr_valid (hvalid.trans hv), haddr]
  refine ⟨t, ht, ?_⟩
  cases i with
  | setBrightness | clearDisplay =>
    cases ht
    simp only [emitted, hbus]
  | writeDisplay | writeColon | setBlinkRate | setDisplayStatus =>
    cases ht
    simp only [emitted, hbus]
    rfl
  | _ => cases hi

/-- Requested again, an operation of R36 leaves the registers as it left them before. -/
theorem exec_retry_registers {i : Instr} (s : State) (hi : retryOp i = true) :
    NextWith (exec i s) fun t => NextWith (exec i t) fun u => u.buf = t.buf ∧ SameConfig t u := by
  cases i with
  | writeDisplay | writeColon | setBrightness | setBlinkRate | setDisplayStatus | clearDisplay =>
    exact ⟨_, rfl, _, rfl, rfl, rfl, rfl, rfl, rfl, rfl⟩
  | _ => cases hi

end Sys2Proof.Machine
end

section
/-! SUPPORT. The statements about the bus and the chip (spec/20_memory.md). -/

namespace Sys2Proof.Machine

open Sys2Proof.Safety

/-- Settles O6: the input a step takes is the request presented. -/
theorem stepRunsDecodedRequest : Obligations.StepRunsDecodedRequest := by
  intro s w rest i hinput hdecode
  simp [step, State.takeInput, hinput, hdecode]

/-- Settles O47, from what the shapes of `initializeBlock` leave in the chip. -/
theorem initializeBootsTheChip : Obligations.InitializeBootsTheChip := by
  refine fun a s => (initialize_chip a s).mono fun t hchip => ?_
  rw [hchip]
  refine ⟨rfl, rfl, rfl, rfl, fun k hk => ?_⟩
  rw [DisplayRam.read_store, dif_pos (by simpa using hk), List.getElem_replicate]

/-- Settles O49, from the two bytes a colon write stores. -/
theorem colonWriteUpdatesColonRowOnly : Obligations.ColonWriteUpdatesColonRowOnly := by
  refine fun s hv => (writeColon_chip hv).mono fun t hchip => ?_
  rw [hchip]
  refine ⟨DisplayRam.read_store_rowTwo _ _ 4, DisplayRam.read_store_rowTwo _ _ 5, fun a h4 h5 => ?_, rfl, rfl, rfl,
    rfl⟩
  rw [DisplayRam.read_store_rowTwo, if_neg h4, if_neg h5]

/-- Settles O48: the full writes make the chip show the buffer; an operation either is one, rewrites the colon row
with what the buffer holds, or stores nothing in display RAM. -/
theorem fullWriteMakesChipShowBuffer : Obligations.FullWriteMakesChipShowBuffer := by
  refine ⟨fun s hv => ⟨writeDisplay_chipShowsBuffer hv, clearDisplay_chipShowsBuffer hv⟩,
    initialize_chipShowsBuffer, fun i s hv (hs : ChipShowsBuffer s) => ?_⟩
  have keeps (hi : _) : NextWith (exec i s) fun t => t.buf = s.buf → ChipShowsBuffer t :=
    (exec_keeps_dram hv hi).mono fun _ hdram hbuf => chipShowsBuffer_of_dram_eq hs hbuf hdram
  cases i with
  | initializeBlock a => exact (initialize_chipShowsBuffer a s).mono fun _ h _ => h
  | clearDisplay => exact (clearDisplay_chipShowsBuffer hv).mono fun _ h _ => h
  | writeDisplay => exact (writeDisplay_chipShowsBuffer hv).mono fun _ h _ => h
  | writeColon => exact (writeColon_keeps_chipShowsBuffer hv hs).mono fun _ h _ => h
  | setDisplayStatus on => exact keeps (.inr (.inl ⟨on, rfl⟩))
  | setBlinkRate rate => exact keeps (.inr (.inr (.inl ⟨rate, rfl⟩)))
  | setBrightness level => exact keeps (.inr (.inr (.inr ⟨level, rfl⟩)))
  | _ => exact keeps (.inl rfl)

/-- Settles O41: what is appended is what the operation emits, the same both times. -/
theorem retryEmitsTheSameAgain : Obligations.RetryEmitsTheSameAgain := by
  intro i s hi hv
  refine (((exec_trace i s).and (exec_retry_emitted hi hv)).and (exec_retry_registers s hi)).mono
    fun t ⟨⟨htrace, hemitted⟩, hregisters⟩ => ?_
  refine (hregisters.and (exec_trace i t)).mono fun u ⟨⟨hbuf, hconfig⟩, htrace'⟩ => ?_
  exact ⟨hbuf, hconfig, _, htrace, hemitted ▸ htrace'⟩

end Sys2Proof.Machine
end

section
/-! SUPPORT. The decoder as the inverse of the encoder (spec/30_encoding.md R51, R52, R55, R60): a word decodes to the
operation whose own word carries the fields that the `op` uses. -/

namespace Sys2Proof

/-- The word with this `op` that carries the fields of `w` the operation uses, and 0 elsewhere (R52, R60). -/
def Request.usedFields (op : Byte) (w : Req64) : Req64 :=
  Request.pack op (if usesA op then Request.a w else 0) (if usesB op then Request.b w else 0) 0
    (if usesF op then Request.f w else false) (if usesN op then Request.n w else 0)

@[simp] theorem Request.op_usedFields (op : Byte) (w : Req64) : Request.op (Request.usedFields op w) = op :=
  Request.op_pack _ _ _ _ _ _

/-- Words that agree in the fields an `op` uses have the same used fields, whatever else they hold (R55). -/
theorem Request.usedFields_congr {op : Byte} {w v : Req64} (ha : usesA op = true → Request.a w = Request.a v)
    (hb : usesB op = true → Request.b w = Request.b v) (hf : usesF op = true → Request.f w = Request.f v)
    (hn : usesN op = true → Request.n w = Request.n v) : Request.usedFields op w = Request.usedFields op v := by
  unfold usedFields
  congr 1
  · exact if_ctx_congr Iff.rfl ha fun _ => rfl
  · exact if_ctx_congr Iff.rfl hb fun _ => rfl
  · exact if_ctx_congr Iff.rfl hf fun _ => rfl
  · exact if_ctx_congr Iff.rfl hn fun _ => rfl

/-- A well-formed word is its `op` and its used fields, every other bit 0 (R51, R60). -/
theorem Request.usedFields_of_wellFormed {w : Req64} (h : wellFormedRequest w = true) :
    Request.usedFields (Request.op w) w = w := by
  simp only [wellFormedRequest, rsvZero, unusedZero, Bool.and_eq_true, Bool.or_eq_true, beq_iff_eq,
    Bool.not_eq_true'] at h
  obtain ⟨_, hrsv, ha, hb, hf, hn⟩ := h
  rw [usedFields, ite_eq_left_iff.2 fun h => (ha.resolve_left h).symm,
    ite_eq_left_iff.2 fun h => (hb.resolve_left h).symm, ite_eq_left_iff.2 fun h => (hf.resolve_left h).symm,
    ite_eq_left_iff.2 fun h => (hn.resolve_left h).symm, ← hrsv, pack_fields]

/-- The two unassigned ranges (R55). -/
theorem opAssigned_eq_false_iff {op : Byte} :
    opAssigned op = false ↔ (0x05 ≤ op.toNat ∧ op.toNat ≤ 0x0F) ∨ 0x23 ≤ op.toNat := by
  simp only [opAssigned, Bool.or_eq_false_iff, Bool.and_eq_false_iff, decide_eq_false_iff_not]
  omega

/-! ### Both directions -/

/-- Settles O1, operation by operation: the decoder reads back the `op` and the fields that `encode` packed. -/
theorem decodeOfEncodeIsTheOperation : Obligations.DecodeOfEncodeIsTheOperation := by
  intro i
  cases i <;>
    simp [encode, decodeRequest, Request.op_pack, Request.a_pack, Request.b_pack, Request.f_pack, Request.n_pack]

/-- The decoder row by row: an assigned `op` gives the operation whose word has the used fields, an unassigned one is
rejected by name (R52, R55). -/
theorem decodeRequest_cases (w : Req64) :
    (opAssigned (Request.op w) = true ∧
      ∃ i : Instr, decodeRequest w = .ok i ∧ encode i = Request.usedFields (Request.op w) w) ∨
    (opAssigned (Request.op w) = false ∧ decodeRequest w = .error (.unassignedOp (Request.op w))) := by
  unfold decodeRequest
  split
  case h_25 =>
    -- The word matches no row, so its `op` lies in one of the two ranges.
    refine .inr ⟨?_, rfl⟩
    rw [opAssigned_eq_false_iff]
    simp only [imp_false] at *
    bv_omega
  all_goals
    rename_i hop
    rw [hop]
    exact .inl ⟨rfl, _, rfl, rfl⟩

theorem decodeRequest_of_unassigned {w : Req64} (h : opAssigned (Request.op w) = false) :
    decodeRequest w = .error (.unassignedOp (Request.op w)) := by
  rcases decodeRequest_cases w with ⟨ha, _⟩ | ⟨_, he⟩
  · exact absurd (ha.symm.trans h) nofun
  · exact he

/-- A word decodes to an operation exactly when the operation's word has the used fields of this one. -/
theorem decodeRequest_eq_ok_iff {w : Req64} {i : Instr} :
    decodeRequest w = .ok i ↔ encode i = Request.usedFields (Request.op w) w := by
  have hi : decodeRequest (encode i) = .ok i := decodeOfEncodeIsTheOperation i
  rcases decodeRequest_cases w with ⟨_, j, hw, hj⟩ | ⟨hunassigned, hw⟩
  · have hj' : decodeRequest (encode j) = .ok j := decodeOfEncodeIsTheOperation j
    rw [hw, ← hj]
    constructor
    · intro h
      cases h
      rfl
    · intro h
      rw [← hj', ← hi, h]
  · refine ⟨fun h => absurd (h.symm.trans hw) nofun, fun h => ?_⟩
    have hop : Request.op (encode i) = Request.op w := by rw [h, Request.op_usedFields]
    exact absurd (hi.symm.trans (decodeRequest_of_unassigned (hop ▸ hunassigned))) nofun

/-- Settles O2: the word of the operation has the used fields, and a well-formed word has no others. -/
theorem wellFormedWordIsEncodedOperation : Obligations.WellFormedWordIsEncodedOperation := by
  intro w hw
  rcases decodeRequest_cases w with ⟨_, i, hi, hencode⟩ | ⟨hunassigned, _⟩
  · exact ⟨i, hi, hencode.trans (Request.usedFields_of_wellFormed hw)⟩
  · simp [wellFormedRequest, hunassigned] at hw

/-! ### The opcode map -/

/-- One row of the opcode map: the operation's word written out of the fields the row uses (R52). -/
theorem encoded_of_encode_eq {op : Byte} {f : Req64 → Instr}
    (h : ∀ w : Req64, encode (f w) = Request.usedFields op w) : Safety.Encoded op f := by
  rintro w rfl
  exact decodeRequest_eq_ok_iff.2 (h w)

/-- The mask of R52 keeps the whole `op`. -/
theorem Request.op_and_mask (w : Req64) : Request.op (w &&& 0xFF00000000000000#64) = Request.op w := by
  rw [Request.op, BitVec.extractLsb'_and]
  exact BitVec.and_allOnes

/-- Settles O3: the mask leaves the `op`, and each row's operation is written out of the fields the row uses. -/
theorem opcodeMapSelectsRowByMask : Obligations.OpcodeMapSelectsRowByMask := by
  intro w m hm
  have hop : Request.op w = Request.op m := by rw [← hm, Request.op_and_mask]
  have row {k : Req64} {i : Instr} (hi : encode i = Request.usedFields (Request.op k) w) (h : m = k) :
      decodeRequest w = .ok i := by
    rw [decodeRequest_eq_ok_iff, hop, h, hi]
  and_intros <;> exact row rfl

end Sys2Proof
end

section
/-! SUPPORT. Requests that the block rejects by their `op`, and the parts of a word it ignores (spec/30_encoding.md
R55). -/

namespace Sys2Proof.Machine

/-- A request that does not decode is taken and answered 0, and nothing else happens (R55). -/
theorem step_of_decode_error {s : State} {w : Req64} {rest : List HostInput} {e : DecodeError}
    (hinput : s.inputs = .request w :: rest) (hdecode : decodeRequest w = .error e) :
    step s = .next { s with inputs := rest, responses := s.responses ++ [false] } := by
  simp [step, State.takeInput, hinput, hdecode, State.respond]

/-- Settles O5: an unassigned `op` is rejected by name and the step only answers; what an assigned `op` decodes to is
fixed by the used fields. -/
theorem unassignedOpChangesNothing : Obligations.UnassignedOpChangesNothing := by
  refine ⟨fun s w rest hinput hop => ?rejected, fun w v hop ha hb hf hn => ?ignored⟩
  case rejected =>
    have hdecode := decodeRequest_of_unassigned (opAssigned_eq_false_iff.2 hop)
    exact ⟨hdecode, step_of_decode_error hinput hdecode⟩
  case ignored =>
    rcases decodeRequest_cases w with ⟨_, i, hw, hi⟩ | ⟨hunassigned, hw⟩
    · have hv : decodeRequest v = .ok i :=
        decodeRequest_eq_ok_iff.2 (hop ▸ hi.trans (Request.usedFields_congr ha hb hf hn))
      rw [hw, hv]
    · rw [hw, decodeRequest_of_unassigned (hop ▸ hunassigned), hop]

end Sys2Proof.Machine
end

section
/-! SUPPORT. The result bit of each operation (spec/30_encoding.md R54) and the reject conditions it follows
(spec/60_exceptions.md R141, R144). -/

namespace Sys2Proof.Machine

open Sys2Proof.Safety

/-! ### The reject conditions -/

/-- The magnitude is the absolute value, also of -2^31 (R121 item 3, D14). -/
theorem magnitude_toNat (number : Num32) : (magnitude number).toNat = number.toInt.natAbs := by
  have habs : magnitude number = number.abs := by
    rw [magnitude, isNegative, BitVec.abs, BitVec.neg_eq, BitVec.neg_eq_not_add]
    rfl
  rw [habs, BitVec.toNat_abs, BitVec.toInt_eq_msb_cond]
  split
  · omega
  · rfl

/-- The loop leaves nothing of the magnitude exactly when four digits hold it (R122 step 5, R125). -/
theorem digitLoop_left_eq_zero_iff {base : Nat} (h2 : 2 ≤ base) (h16 : base ≤ 16) {padding : Bool} {m : Nat}
    {s s' : State} {left free : Nat} (h : digitLoop base padding 4 m s = (s', left, free)) :
    left = 0 ↔ m < base ^ 4 := by
  obtain ⟨hfree, hleft, hstop, _⟩ := digitLoop_spec h2 h16 padding 3 m (Nat.le_refl 3) s s' left free h
  have hpos (k : Nat) : 0 < base ^ k := Nat.pow_pos (by omega)
  rw [hleft, Nat.div_eq_zero_iff_lt (hpos _)]
  by_cases h0 : free = 0
  · rw [h0]
  · -- The loop stopped early, so nothing was left already at fewer digits.
    have hlt : m < base ^ (3 + 1 - free) := (Nat.div_eq_zero_iff_lt (hpos _)).1 (hleft ▸ (hstop h0).1)
    exact iff_of_true hlt (hlt.trans_le (Nat.pow_le_pow_right (by omega) (by omega)))

theorem rejectCause_printNumber_eq_none_iff {number : Num32} {base : Operand} {padding : Bool} :
    rejectCause (.printNumber number base padding) = none ↔
      baseAccepted base = true ∧ (magnitude number).toNat < base.toNat ^ 4 := by
  rw [baseAccepted_iff, magnitude_toNat, rejectCause]
  split
  case isTrue hbase => exact iff_of_false nofun (by omega)
  case isFalse hbase =>
    have hpos : 0 < base.toNat ^ 4 := Nat.pow_pos (by omega)
    split
    case isTrue hfits => exact iff_of_true rfl (by omega)
    case isFalse hover => exact iff_of_false (by split <;> nofun) (by omega)

theorem rejectCause_printTime_eq_none_iff {first last : Operand} :
    rejectCause (.printTime first last) = none ↔ timeAccepted first last = true := by
  rw [timeAccepted_iff, rejectCause]
  split
  case isTrue hrange => exact iff_of_false nofun (by omega)
  case isFalse hrange => exact iff_of_true rfl (by omega)

/-- Only `printNumber` and `printTime` can be rejected (R54, R141). -/
theorem rejectCause_eq_none {i : Instr} (hnumber : ∀ n b p, i ≠ .printNumber n b p)
    (htime : ∀ f l, i ≠ .printTime f l) : rejectCause i = none := by
  cases i with
  | printNumber n b p => exact absurd rfl (hnumber n b p)
  | printTime f l => exact absurd rfl (htime f l)
  | _ => rfl

/-! ### The result bit -/

/-- A drawing or printing operation answers one bit, the one its outcome ends with (R54, R109). -/
theorem exec_drawsOnly_responses {i : Instr} (hi : drawsOnly i = true) {s t : State} {ok : Bool}
    (ht : exec i s = .next (t.respond ok)) : NextWith (exec i s) fun t => t.responses = s.responses ++ [ok] := by
  obtain ⟨u, ok', hu, honly⟩ := exec_drawsOnly s hi
  have heq : t.respond ok = u.respond ok' := Host.Outcome.next.inj (ht.symm.trans hu)
  obtain ⟨hbefore, _⟩ : t.responses = u.responses ∧ [ok] = [ok'] :=
    List.append_inj' (congrArg State.responses heq) rfl
  exact ⟨_, ht, congrArg (· ++ [ok]) (hbefore.trans honly.responses_eq)⟩

theorem execPrintNumber_eq_respond (number : Num32) (base : Operand) (padding : Bool) (s : State) :
    ∃ t : State, execPrintNumber number base padding s =
      .next (t.respond (decide (rejectCause (.printNumber number base padding) = none))) := by
  rw [decide_eq_decide.2 rejectCause_printNumber_eq_none_iff]
  rcases execPrintNumber_cases number base padding s with ⟨hbase, h⟩ | ⟨s1, left, free, hbase, hloop, h⟩
  · exact ⟨_, by simpa [hbase] using h⟩
  · obtain ⟨h2, h16⟩ := (baseAccepted_iff base).1 hbase
    have hfits := digitLoop_left_eq_zero_iff h2 h16 hloop
    rcases h with ⟨hleft, h⟩ | ⟨hleft, h⟩
    · exact ⟨_, by rw [h, decide_eq_false fun hc => hleft (hfits.2 hc.2)]⟩
    · exact ⟨_, by rw [h, decide_eq_true ⟨hbase, hfits.1 hleft⟩]⟩

theorem execPrintTime_eq_respond (first last : Operand) (s : State) :
    ∃ t : State, execPrintTime first last s =
      .next (t.respond (decide (rejectCause (.printTime first last) = none))) := by
  rw [Bool.eq_iff_iff.2 (decide_eq_true_iff.trans rejectCause_printTime_eq_none_iff)]
  rcases execPrintTime_cases first last s with ⟨hrange, h⟩ | ⟨hrange, h⟩
  · exact ⟨_, by rw [h, hrange]⟩
  · exact ⟨_, by rw [h, hrange]⟩

/-- R54: every operation completes with one more result bit, 0 exactly under a reject condition. -/
theorem exec_responses (i : Instr) (s : State) :
    NextWith (exec i s) fun t => t.responses = s.responses ++ [decide (rejectCause i = none)] := by
  cases i with
  | initializeBlock | setDisplayStatus | setBlinkRate | setBrightness | clearDisplay | writeDisplay | writeColon =>
    exact ⟨_, rfl, rfl⟩
  | toggleDot pos =>
    obtain ⟨t, ht, _⟩ := execToggleDot_eq pos s
    exact exec_drawsOnly_responses rfl ht
  | printNumber number base padding =>
    obtain ⟨t, ht⟩ := execPrintNumber_eq_respond number base padding s
    exact exec_drawsOnly_responses rfl ht
  | printTime first last =>
    obtain ⟨t, ht⟩ := execPrintTime_eq_respond first last s
    exact exec_drawsOnly_responses rfl ht
  | _ => exact exec_drawsOnly_responses rfl rfl

/-- Settles O32, from the bit of every operation and from the step of a request that does not decode. -/
theorem everyRequestAnswersOneBit : Obligations.EveryRequestAnswersOneBit :=
  ⟨exec_responses, fun _ => rejectCause_eq_none, fun _ _ _ _ hinput hdecode =>
    ⟨_, step_of_decode_error hinput hdecode, rfl⟩⟩

end Sys2Proof.Machine
end

section
/-! SUPPORT. Which operations equal another operation or a sequence of others in effect (spec/30_encoding.md R61). -/

namespace Sys2Proof.Machine

open Sys2Proof.Safety

/-- A value above the table shows nothing (R18, R96). -/
theorem digitMask_of_gt {value : Operand} (h : 15 < value.toNat) : digitMask value false = maskEmpty := by
  have hnot : ¬value ≤ Config.valueMax := by
    rw [BitVec.le_def]
    exact Nat.not_le_of_lt h
  simp [digitMask, hnot]

/-- A result bit given earlier does not change what a digit write does. -/
theorem putDigit_respond (s : State) (ok : Bool) (pos : Operand) (m : Mask) :
    (s.respond ok).putDigit pos m = (s.putDigit pos m).respond ok := by
  unfold State.putDigit
  split <;> rfl

/-- A line has the effect of its digit write requested at each position in turn (R98, R104 to R106). -/
theorem line_sameEffect (m : Mask) (op : Operand → Instr)
    (hop : ∀ (pos : Operand) (t : State), exec (op pos) t = .next ((t.putDigit pos m).respond true)) (s : State) :
    SameEffect (.next ((s.line m).respond true)) (runAll [op 0, op 1, op 2, op 3] s) := by
  simp only [runAll, hop, putDigit_respond]
  exact ⟨_, _, rfl, rfl, rfl, ⟨rfl, rfl, rfl, rfl, rfl⟩, rfl, rfl⟩

/-- The colon toggles to lit exactly when its cell is zero (R95). -/
theorem execToggleColon_eq (s : State) :
    execToggleColon s = execDrawColon (decide (s.buf[Config.colonCell] = 0x0000)) s := by
  unfold execToggleColon execDrawColon
  by_cases h : s.buf[Config.colonCell] = 0x0000#16 <;> simp [h]

/-- Settles O39, from the digit write and the line that each operation is. -/
theorem operationsEqualInEffect : Obligations.OperationsEqualInEffect := by
  refine fun s => ⟨fun pos value hvalue => ?clearDigit,
    line_sameEffect maskEmpty .clearDigit (fun _ _ => rfl) s, line_sameEffect maskTop .drawOver (fun _ _ => rfl) s,
    line_sameEffect maskHyphen .drawHyphen (fun _ _ => rfl) s,
    line_sameEffect maskBottom .drawUnder (fun _ _ => rfl) s, execToggleColon_eq s, rfl⟩
  case clearDigit =>
    have hstep : s.digitStep pos value false = s.putDigit pos maskEmpty := by
      rw [State.digitStep, digitMask_of_gt hvalue]
    exact congrArg (fun t => Host.Outcome.next (t.respond true)) hstep.symm

end Sys2Proof.Machine
end

section
/-! SUPPORT. The command bytes and clamps as the rules of spec/40_driver.md write them (R57, R58, R74 to R76), and which
transactions carry "oscillator on" (R73). -/

namespace Sys2Proof.Machine

open Sys2Proof.Safety

theorem dsetup_eq (on : Bool) (blink : BitVec 2) :
    dsetup on blink = 0x80#8 ||| (if on then 1 else 0) ||| (blink.setWidth 8 <<< 1) := by
  cases on <;> rfl

theorem brightCmd_eq (level : BitVec 4) : brightCmd level = BitVec.ofNat 8 (0xE0 + level.toNat) := by
  revert level; decide

theorem clampRate_toNat (rate : Operand) :
    (clampRate rate).toNat = if 3 < rate.toNat then 0 else rate.toNat := by
  have hgt : rate > Config.blinkMax ↔ 3 < rate.toNat := BitVec.lt_def
  simp only [clampRate, hgt]
  split
  next => rfl
  next h => rw [BitVec.extractLsb'_toNat, Nat.shiftRight_zero, Nat.mod_eq_of_lt (by omega)]

theorem clampLevel_toNat (level : Operand) : (clampLevel level).toNat = min level.toNat 15 := by
  have hgt : level > Config.brightMax ↔ 15 < level.toNat := BitVec.lt_def
  simp only [clampLevel, hgt]
  split
  next h => exact (min_eq_right h.le).symm
  next h => rw [BitVec.extractLsb'_toNat, Nat.shiftRight_zero, Nat.mod_eq_of_lt (by omega), min_eq_left (by omega)]

/-! ### Transactions -/

/-- A transaction is `Begin`, its bytes and `End` (R30). -/
theorem length_of_sends {s t : State} {bytes : List Byte} (h : Sends bytes s t) :
    t.trace.length = s.trace.length + (bytes.length + 2) := by
  obtain ⟨a, _, htrace⟩ := h
  simp [htrace, txEvents]

theorem openBus_notMem_txEvents (a : BusAddr) (bytes : List Byte) : BusEvent.openBus ∉ txEvents a bytes := by
  simp [txEvents]

/-- The first `End` closes the transaction, so the bytes before it are all of its bytes. -/
theorem bytes_eq_of_closed {bytes data : List Byte} {after : List BusEvent}
    (h : bytes.map BusEvent.writeByte ++ .endTx :: after = data.map .writeByte ++ [.endTx]) : bytes = data := by
  induction bytes generalizing data with
  | nil => cases data with
    | nil => rfl
    | cons d data => simp at h
  | cons b bytes ih => cases data with
    | nil => simp at h
    | cons d data =>
      obtain ⟨hb, hrest⟩ := List.cons.inj h
      rw [BusEvent.writeByte.inj hb, ih hrest]

/-- A transaction contains no other transaction than itself: it begins once. -/
theorem bytes_eq_of_txEvents_part {a b : BusAddr} {bytes data : List Byte}
    (h : txEvents a bytes <:+: txEvents b data) : bytes = data := by
  obtain ⟨before, after, h⟩ := h
  cases before with
  | nil =>
    apply bytes_eq_of_closed (after := after)
    simpa [txEvents] using (List.cons.inj h).2
  | cons e before =>
    -- The inner `Begin` would stand behind the outer one, among its bytes and its `End`.
    have hmem : BusEvent.beginTx a ∈ data.map BusEvent.writeByte ++ [.endTx] := by
      rw [show data.map BusEvent.writeByte ++ [.endTx] = _ from (List.cons.inj h).2.symm]
      simp [txEvents]
    simp at hmem

/-! ### What the operations other than `initializeBlock` send -/

/-- Such an operation sends nothing, or one transaction that is not "oscillator on" (R73). -/
theorem emitted_of_not_initialize {i : Instr} (hi : ∀ a, i ≠ .initializeBlock a) (s : State) :
    (emitted s i).flatMap BusItem.events = [] ∨
      ∃ (a : BusAddr) (bytes : List Byte),
        (emitted s i).flatMap BusItem.events = txEvents a bytes ∧ bytes ≠ [cmdOscillatorOn] := by
  have hdsetup (on : Bool) (blink : BitVec 2) : [dsetup on blink] ≠ [cmdOscillatorOn] := by
    obtain ⟨_, _, hosc, _⟩ := dsetup_range on blink
    exact fun h => hosc (List.cons.inj h).1
  have hbright (level : BitVec 4) : [brightCmd level] ≠ [cmdOscillatorOn] := by
    obtain ⟨_, _, hosc, _⟩ := brightCmd_range level
    exact fun h => hosc (List.cons.inj h).1
  cases i with
  | initializeBlock a => exact absurd rfl (hi a)
  | setDisplayStatus | setBlinkRate => exact .inr ⟨_, _, List.append_nil _, hdsetup _ _⟩
  | setBrightness => exact .inr ⟨_, _, List.append_nil _, hbright _⟩
  | clearDisplay | writeDisplay | writeColon =>
    exact .inr ⟨_, _, List.append_nil _, fun h => absurd (List.cons.inj h).1 (by decide)⟩
  | _ => exact .inl rfl

end Sys2Proof.Machine
end

section
/-! SUPPORT. The chip at `ADDR` is told what the registers hold (spec/20_memory.md R43, spec/40_driver.md R79): what
each operation tells it. -/

namespace Sys2Proof.Machine

open Sys2Proof.Safety

/-- A chip holds the configuration registers of `s`, with its oscillator on and all its display RAM written. -/
def Told (s : State) (c : Chip) : Prop :=
  c.osc = some true ∧ c.dOn = some s.dispOn ∧ c.dBlink = some s.blink ∧ c.dBright = some s.bright ∧
    ∀ a < 16, (c.dram.read a).isSome = true

theorem mirrorInv_iff (s : State) : MirrorInv s ↔ (s.addrValid = true → Told s (chipOf s.addr s.trace)) := Iff.rfl

theorem DisplayRam.isSome_read_store {m : DisplayRam} {k : Nat} (h : (DisplayRam.read m k).isSome = true) (a : Nat)
    (data : List Byte) : (DisplayRam.read (DisplayRam.store a data m) k).isSome = true := by
  rw [DisplayRam.read_store]
  split
  next => rfl
  next => exact h

/-! What a chip that is told the registers makes of one more transaction. -/

theorem Told.receive_dsetup {s : State} {c : Chip} (h : Told s c) (on : Bool) (blink : BitVec 2) :
    Told { s with dispOn := on, blink := blink } (c.receive [dsetup on blink]) := by
  obtain ⟨hosc, _, _, hbright, hdram⟩ := h
  rw [Chip.receive_dsetup]
  exact ⟨hosc, rfl, rfl, hbright, hdram⟩

theorem Told.receive_brightCmd {s : State} {c : Chip} (h : Told s c) (level : BitVec 4) :
    Told { s with bright := level } (c.receive [brightCmd level]) := by
  obtain ⟨hosc, hon, hblink, _, hdram⟩ := h
  rw [Chip.receive_brightCmd]
  exact ⟨hosc, hon, hblink, rfl, hdram⟩

theorem Told.receive_rowZero {s : State} {c : Chip} (h : Told s c) (data : List Byte) :
    Told s (c.receive (0x00 :: data)) := by
  obtain ⟨hosc, hon, hblink, hbright, hdram⟩ := h
  rw [Chip.receive_rowZero]
  exact ⟨hosc, hon, hblink, hbright, fun k hk => DisplayRam.isSome_read_store (hdram k hk) 0 data⟩

theorem Told.receive_rowFour {s : State} {c : Chip} (h : Told s c) (data : List Byte) :
    Told s (c.receive (0x04 :: data)) := by
  obtain ⟨hosc, hon, hblink, hbright, hdram⟩ := h
  rw [Chip.receive_rowFour]
  exact ⟨hosc, hon, hblink, hbright, fun k hk => DisplayRam.isSome_read_store (hdram k hk) 4 data⟩

/-- One transaction to `ADDR` keeps the invariant when its bytes tell the chip what the registers now hold. -/
theorem mirrorInv_of_receive {s t : State} {bytes : List Byte} (hs : MirrorInv s)
    (htrace : t.trace = s.trace ++ txEvents s.busAddr bytes) (haddr : t.addr = s.addr)
    (hvalid : t.addrValid = s.addrValid) (htold : ∀ c, Told s c → Told t (c.receive bytes)) : MirrorInv t := by
  rw [mirrorInv_iff, hvalid]
  intro hv
  rw [chipOf_transaction htrace haddr hv]
  exact htold _ (hs hv)

/-- Without a transaction and with the registers as they were, nothing has to be told. -/
theorem mirrorInv_of_sameConfig {s t : State} (hs : MirrorInv s) (hconfig : SameConfig s t)
    (htrace : t.trace = s.trace) : MirrorInv t := by
  obtain ⟨hon, hblink, hbright, haddr, hvalid⟩ := hconfig
  rw [mirrorInv_iff, Told, hon, hblink, hbright, haddr, hvalid, htrace]
  exact hs

/-- `initializeBlock` tells the chip everything, whatever held before (R73). -/
theorem initialize_mirrorInv (a : Operand) (s : State) : NextWith (exec (.initializeBlock a) s) MirrorInv := by
  have hregisters : NextWith (exec (.initializeBlock a) s) fun t =>
      t.addr = a ∧ t.dispOn = true ∧ t.blink = 0 ∧ t.bright = 15 := ⟨_, rfl, rfl, rfl, rfl, rfl⟩
  refine ((initializeBootsTheChip a s).and hregisters).mono fun t ⟨hchip, haddr, hon, hblink, hbright⟩ _ => ?_
  obtain ⟨hosc, hdOn, hdBlink, hdBright, hdram⟩ := hchip
  rw [haddr, hon, hblink, hbright]
  exact ⟨hosc, hdOn, hdBlink, hdBright, fun k hk => by rw [hdram k hk, Option.isSome_some]⟩

/-- R43, R79: every operation that changes a register sends it, so the chip stays told. -/
theorem exec_keeps_mirrorInv (i : Instr) {s : State} (hs : MirrorInv s) : NextWith (exec i s) MirrorInv := by
  by_cases hd : drawsOnly i = true
  · exact (exec_drawsOnly_frame s hd).mono fun t ⟨hconfig, htrace, _⟩ => mirrorInv_of_sameConfig hs hconfig htrace
  · cases i with
    | initializeBlock a => exact initialize_mirrorInv a s
    | setDisplayStatus | setBlinkRate =>
      exact ⟨_, rfl, mirrorInv_of_receive hs rfl rfl rfl fun _ hc => hc.receive_dsetup _ _⟩
    | setBrightness => exact ⟨_, rfl, mirrorInv_of_receive hs rfl rfl rfl fun _ hc => hc.receive_brightCmd _⟩
    | clearDisplay | writeDisplay =>
      exact ⟨_, rfl, mirrorInv_of_receive hs rfl rfl rfl fun _ hc => hc.receive_rowZero _⟩
    | writeColon => exact ⟨_, rfl, mirrorInv_of_receive hs rfl rfl rfl fun _ hc => hc.receive_rowFour _⟩
    | _ => exact absurd rfl hd

end Sys2Proof.Machine
end

section
/-! SUPPORT. The statements about the driver operations (spec/40_driver.md). -/

namespace Sys2Proof.Machine

open Sys2Proof.Safety

/-- Settles O45, by the cases of a step. -/
theorem stepKeepsMirrorInv : Obligations.StepKeepsMirrorInv := by
  intro s t hs ht
  rcases step_cases s with h | ⟨rest, h | h | ⟨i, h⟩⟩
  · cases h.symm.trans ht
    exact hs
  · cases h.symm.trans ht
    exact fun hvalid => absurd hvalid (by simp)
  · cases h.symm.trans ht
    exact hs
  · exact (exec_keeps_mirrorInv i (s := { s with inputs := rest }) hs).of_eq (h.symm.trans ht)

/-- The 32 events of `initializeBlock` written out (R73). -/
theorem initialize_trace (a : Operand) (s : State) :
    NextWith (exec (.initializeBlock a) s) fun t =>
      t.trace = s.trace ++
        ([.openBus, .beginTx a, .writeByte 0x21, .endTx, .beginTx a, .writeByte 0x00] ++
          List.replicate 16 (.writeByte 0x00) ++
          [.endTx, .beginTx a, .writeByte (if s.dispOn then 0x81 else 0x80), .endTx, .beginTx a,
            .writeByte 0xEF, .endTx, .beginTx a, .writeByte 0x81, .endTx]) := by
  refine (exec_trace (.initializeBlock a) s).mono fun t ht => ?_
  have hsetup : dsetup s.dispOn 0 = if s.dispOn then 0x81 else 0x80 := by cases s.dispOn <;> rfl
  rw [ht, emitted, hsetup]
  rfl

/-- Settles O9: the boot's shapes written out, and the one transaction at most that any other operation sends. -/
theorem initializeBootsAndEmits32Events : Obligations.InitializeBootsAndEmits32Events := by
  refine ⟨encoded_of_encode_eq fun _ => rfl, fun a s => ?boot, fun i s hi => ?other⟩
  case boot =>
    obtain ⟨t, ht, htrace⟩ := initialize_trace a s
    refine ⟨t, ht, ?_⟩
    have hlength : t.trace.length = s.trace.length + 32 := by simp [htrace]
    cases (execInitialize_eq a s).symm.trans ht
    exact ⟨rfl, rfl, zeroAll_getElem s, rfl, rfl, rfl, htrace, hlength, rfl, rfl, rfl⟩
  case other =>
    refine ((exec_trace i s).and (exec_addr_eq hi s)).mono fun t ⟨htrace, haddr, hvalid⟩ => ?_
    refine ⟨haddr, hvalid, _, htrace, ?_⟩
    rcases emitted_of_not_initialize hi s with h | ⟨a, bytes, h, hne⟩
    · rw [h]
      exact ⟨List.not_mem_nil, fun a => by simp [txEvents], .inl rfl⟩
    · rw [h]
      exact ⟨openBus_notMem_txEvents a bytes, fun b hpart => hne (bytes_eq_of_txEvents_part hpart).symm,
        .inr ⟨a, bytes, rfl, hne⟩⟩

/-- Settles O10: a display-setup byte is no row address, so no chip stores anything. -/
theorem setDisplayStatusStoresAndSends : Obligations.SetDisplayStatusStoresAndSends := by
  refine ⟨encoded_of_encode_eq fun _ => rfl, fun on s => ?_⟩
  rw [← dsetup_eq]
  refine ⟨_, rfl, rfl, rfl, rfl, rfl, rfl, rfl, transaction_sends { s with dispOn := on } _, ⟨rfl, rfl⟩, fun a => ?_⟩
  refine (congrArg Chip.dram (chipOf_append_txEvents a s.busAddr [dsetup on s.blink] s.trace)).trans ?_
  split
  next => rw [Chip.receive_dsetup]
  next => rfl

/-- Settles O11, from the clamp and the display-setup byte. -/
theorem setBlinkRateClampsStoresAndSends : Obligations.SetBlinkRateClampsStoresAndSends := by
  refine ⟨encoded_of_encode_eq fun _ => rfl, fun rate s => ?_⟩
  simp only [← dsetup_eq]
  exact ⟨_, rfl, clampRate_toNat rate, rfl, rfl, rfl, rfl, rfl,
    transaction_sends { s with blink := clampRate rate } _, rfl, rfl⟩

/-- Settles O12, from the clamp and the brightness byte. -/
theorem setBrightnessClampsStoresAndSends : Obligations.SetBrightnessClampsStoresAndSends := by
  refine ⟨encoded_of_encode_eq fun _ => rfl, fun level s => ?_⟩
  rw [← clampLevel_toNat, ← brightCmd_eq]
  exact ⟨_, rfl, rfl, rfl, rfl, rfl, rfl, rfl,
    transaction_sends { s with bright := clampLevel level } _, rfl, rfl⟩

/-- Settles O13: the flush of the zeroed buffer is 17 zero bytes. -/
theorem clearDisplayZeroesAndFlushes : Obligations.ClearDisplayZeroesAndFlushes := by
  refine ⟨encoded_of_encode_eq fun _ => rfl, fun s => ?_⟩
  have hsends : Sends (List.replicate 17 0x00) s (s.zeroAll.flush.respond true) := transaction_sends s.zeroAll _
  exact ⟨_, rfl, zeroAll_getElem s, ⟨rfl, rfl, rfl, rfl, rfl⟩, hsends, length_of_sends hsends, rfl, rfl⟩

end Sys2Proof.Machine
end

section
/-! SUPPORT. Rules for the frames the claims speak of: more cells may be named than are written, and frames of two
operations run one after the other compose. -/

namespace Sys2Proof.Safety

open Sys2Proof.Machine

theorem SameCellsBut.mono {cells more : List (Fin 8)} {s t : State} (h : SameCellsBut cells s t)
    (hsub : cells ⊆ more) : SameCellsBut more s t :=
  fun j hj => h j fun hc => hj (hsub hc)

/-- A buffer none of whose listed cells changed either is the same buffer. -/
theorem SameCellsBut.buf_eq {cells : List (Fin 8)} {s t : State} (h : SameCellsBut cells s t)
    (hcells : ∀ j ∈ cells, t.buf[j] = s.buf[j]) : t.buf = s.buf :=
  buf_ext fun j => (em (j ∈ cells)).elim (hcells j) (h j)

theorem BufferOnly.mono {ok : Bool} {cells more : List (Fin 8)} {s t : State} (h : BufferOnly ok cells s t)
    (hsub : cells ⊆ more) : BufferOnly ok more s t := by
  obtain ⟨hconfig, hcells, hrest⟩ := h
  exact ⟨hconfig, hcells.mono hsub, hrest⟩

theorem SameConfig.trans {s t u : State} (h : SameConfig s t) (k : SameConfig t u) : SameConfig s u := by
  obtain ⟨hon, hblink, hbright, haddr, hvalid⟩ := h
  obtain ⟨kon, kblink, kbright, kaddr, kvalid⟩ := k
  exact ⟨kon.trans hon, kblink.trans hblink, kbright.trans hbright, kaddr.trans haddr, kvalid.trans hvalid⟩

theorem Silent.trans {s t u : State} (h : Silent s t) (k : Silent t u) : Silent s u :=
  ⟨k.1.trans h.1, k.2.trans h.2⟩

end Sys2Proof.Safety
end

section
/-! SUPPORT. The drawing operations of spec/41_formatter_draw.md sections 3 to 6, all in one form: which cells one
writes (`writtenCells`) and what it makes of the value each of them held (`cellRule`). -/

namespace Sys2Proof.Machine

open Sys2Proof.Safety

/-! ### What a drawing operation does -/

/-- A colon cell toggled: emptied where it is not zero, lit where it is (R95). -/
def toggledColon (c : Cell) : Cell := if c = 0x0000#16 then 0x0002 else 0x0000

/-- A cell with its dot, bit 7, set or cleared (R99). -/
def withDot (dot : Bool) (c : Cell) : Cell := if dot then c ||| 0x0080 else c &&& 0xFF7F

/-- A cell with its dot inverted (R100). -/
def invertedDot (c : Cell) : Cell := c ^^^ 0x0080

/-- What a drawing operation makes of the value of a cell it writes (R94 to R108); the other operations have no such
rule. -/
def cellRule : Instr → Option (Cell → Cell)
  | .drawColon status => some fun _ => cellOfMask (if status then maskColonLit else maskEmpty)
  | .toggleColon => some toggledColon
  | .drawDigit _ value dot => some fun _ => cellOfMask (digitMask value dot)
  | .clearDigit _ | .clearDigits => some fun _ => cellOfMask maskEmpty
  | .drawDot _ dot => some (withDot dot)
  | .toggleDot _ => some invertedDot
  | .drawHyphen _ | .drawLineMiddle => some fun _ => cellOfMask maskHyphen
  | .drawOver _ | .drawLineUpper => some fun _ => cellOfMask maskTop
  | .drawUnder _ | .drawLineLower => some fun _ => cellOfMask maskBottom
  | .drawLines2 => some fun _ => cellOfMask maskLines2
  | .drawLines3 => some fun _ => cellOfMask maskLines3
  | _ => none

theorem toggledColon_eq (c : Cell) :
    cellOfMask (if c ≠ 0x0000#16 then maskEmpty else maskColonLit) = toggledColon c := by
  unfold toggledColon
  by_cases h : c = 0x0000#16
  · rw [if_neg (not_not.2 h), if_pos h]
    rfl
  · rw [if_pos h, if_neg h]
    rfl

/-- The cell of a position is the one the guard and the map select (R40, R90). -/
theorem mem_posCell_toList_iff {pos : Operand} {j : Fin 8} :
    j ∈ (posCell pos).toList ↔ pos.toNat ≤ 3 ∧ j.val = rawOf pos.toNat := by
  rw [Option.mem_toList, posCell_eq_some_iff]

/-- R109: a drawing or printing operation writes its cells of the buffer, answers its bit and does nothing else. -/
theorem exec_bufferOnly {i : Instr} (hi : drawsOnly i = true) (s : State) :
    NextWith (exec i s) (BufferOnly (decide (rejectCause i = none)) (writtenCells i) s) := by
  obtain ⟨t, ok, ht, honly⟩ := exec_drawsOnly s hi
  have hcells : SameCellsBut (writtenCells i) s t := ((exec_draws i s).of_eq ht).1
  have hanswer : (t.respond ok).responses = s.responses ++ [decide (rejectCause i = none)] :=
    (exec_responses i s).of_eq ht
  exact ⟨_, ht, honly.sameConfig, hcells, honly.silent, hanswer, honly.inputs_eq⟩

theorem drawsOnly_of_cellRule {i : Instr} {f : Cell → Cell} (h : cellRule i = some f) : drawsOnly i = true := by
  cases i with
  | initializeBlock | setDisplayStatus | setBlinkRate | setBrightness | clearDisplay | writeDisplay | writeColon =>
    cases h
  | _ => rfl

theorem rejectCause_of_cellRule {i : Instr} {f : Cell → Cell} (h : cellRule i = some f) :
    rejectCause i = none := by
  cases i with
  | printNumber | printTime => cases h
  | _ => rfl

/-- Every cell a drawing operation writes takes the value of its rule. -/
theorem exec_cells {i : Instr} {f : Cell → Cell} (h : cellRule i = some f) (s : State) :
    NextWith (exec i s) fun t => ∀ j ∈ writtenCells i, t.buf[j] = f s.buf[j] := by
  cases i with
  | drawColon status =>
    cases h
    exact ⟨_, rfl, fun j hj => (bufWrite_getElem s _ j _).trans (if_pos (List.mem_singleton.1 hj))⟩
  | toggleColon =>
    cases h
    refine ⟨_, rfl, fun j hj => ?_⟩
    obtain rfl : j = Config.colonCell := List.mem_singleton.1 hj
    exact ((bufWrite_getElem s _ _ _).trans (if_pos rfl)).trans (toggledColon_eq _)
  | drawDigit | clearDigit | drawHyphen | drawOver | drawUnder =>
    cases h
    exact ⟨_, rfl, fun j hj => (putDigit_getElem s _ _ j).trans (if_pos (mem_posCell_toList_iff.1 hj))⟩
  | clearDigits | drawLineUpper | drawLineMiddle | drawLineLower | drawLines2 | drawLines3 =>
    cases h
    exact ⟨_, rfl, fun j hj => (line_getElem s _ j).trans (if_pos hj)⟩
  | drawDot pos dot =>
    cases h
    exact ⟨_, rfl, fun j hj => (dotStep_getElem s pos dot j).trans (if_pos (mem_posCell_toList_iff.1 hj))⟩
  | toggleDot pos =>
    cases h
    obtain ⟨t, ht, _, hcells⟩ := execToggleDot_eq pos s
    exact ⟨_, ht, fun j hj => (hcells j).trans (if_pos (mem_posCell_toList_iff.1 hj))⟩
  | _ => cases h

/-- The whole of a drawing operation: its cells take the values of its rule, it answers 1, nothing else changes. -/
theorem exec_of_cellRule {i : Instr} {f : Cell → Cell} (h : cellRule i = some f) (s : State) :
    NextWith (exec i s) fun t =>
      (∀ j ∈ writtenCells i, t.buf[j] = f s.buf[j]) ∧ BufferOnly true (writtenCells i) s t := by
  have hframe := exec_bufferOnly (drawsOnly_of_cellRule h) s
  rw [rejectCause_of_cellRule h] at hframe
  exact (exec_cells h s).and hframe

/-- The same for an operation with a position, by the cell of R40. -/
theorem exec_of_cellRule_of_pos {i : Instr} {f : Cell → Cell} {pos : Operand} (h : cellRule i = some f)
    (hpos : writtenCells i = (posCell pos).toList) (s : State) :
    NextWith (exec i s) fun t =>
      (∀ j : Fin 8, t.buf[j] = if pos.toNat ≤ 3 ∧ j.val = rawOf pos.toNat then f s.buf[j] else s.buf[j]) ∧
        BufferOnly true digitCells s t := by
  refine (exec_of_cellRule h s).mono fun t ⟨hcells, hframe⟩ => ?_
  rw [hpos] at hcells hframe
  refine ⟨fun j => ?_, hframe.mono (posCell_toList_subset pos)⟩
  obtain ⟨_, hsame, _⟩ := hframe
  split
  next hj => exact hcells j (mem_posCell_toList_iff.2 hj)
  next hj => exact hsame j fun hmem => hj (mem_posCell_toList_iff.1 hmem)

/-- The same where the operation puts one value into the cell of its position. -/
theorem exec_of_cellRule_const_of_pos {i : Instr} {v : Cell} {pos : Operand} (h : cellRule i = some fun _ => v)
    (hpos : writtenCells i = (posCell pos).toList) (s : State) :
    NextWith (exec i s) fun t =>
      (∀ j : Fin 8, t.buf[j] = if pos.toNat ≤ 3 ∧ j.val = rawOf pos.toNat then v else s.buf[j]) ∧
        BufferOnly true digitCells s t :=
  exec_of_cellRule_of_pos h hpos s

/-- The same where the operation puts one value into the four digit cells. -/
theorem exec_of_cellRule_const_of_digits {i : Instr} {v : Cell} (h : cellRule i = some fun _ => v)
    (hdigits : writtenCells i = digitCells) (s : State) :
    NextWith (exec i s) fun t => (∀ j ∈ digitCells, t.buf[j] = v) ∧ BufferOnly true digitCells s t :=
  hdigits ▸ exec_of_cellRule h s

/-- With no cell to write, a drawing operation only answers (R90). -/
theorem exec_of_cellRule_of_nil {i : Instr} {f : Cell → Cell} (h : cellRule i = some f)
    (hnil : writtenCells i = []) (s : State) : exec i s = .next (s.respond true) := by
  obtain ⟨t, ok, ht, honly⟩ := exec_drawsOnly s (drawsOnly_of_cellRule h)
  obtain ⟨_, _, hsame, _, hanswer, _⟩ := (exec_of_cellRule h s).of_eq ht
  have hbuf : t.buf = s.buf := hsame.buf_eq (by simp [hnil])
  have hstate : t = s := by rw [honly, hbuf]
  subst hstate
  rw [ht, List.singleton_inj.1 (List.append_cancel_left hanswer)]

/-! ### Requesting a drawing operation twice (R110) -/

/-- Where the rule applied twice gives what it gives once, the second request changes no cell. -/
theorem exec_twice_of_idempotent {i : Instr} {f : Cell → Cell} (h : cellRule i = some f)
    (hf : ∀ c, f (f c) = f c) (s : State) :
    NextWith (exec i s) fun t => NextWith (exec i t) fun u => u.buf = t.buf := by
  refine (exec_of_cellRule h s).mono fun t ⟨ht, _⟩ => ?_
  refine (exec_of_cellRule h t).mono fun u ⟨hu, _, hsame, _⟩ => hsame.buf_eq fun j hj => ?_
  rw [hu j hj, ht j hj, hf]

/-- Where the rule applied twice gives a cell's value back, the second request restores the buffer. -/
theorem exec_twice_of_involutive {i : Instr} {f : Cell → Cell} (h : cellRule i = some f) (s : State) :
    NextWith (exec i s) fun t => NextWith (exec i t) fun u =>
      (∀ j ∈ writtenCells i, f (f s.buf[j]) = s.buf[j]) → u.buf = s.buf := by
  refine (exec_of_cellRule h s).mono fun t ⟨ht, _, hst, _⟩ => ?_
  refine (exec_of_cellRule h t).mono fun u ⟨hu, _, htu, _⟩ hf => ?_
  refine SameCellsBut.buf_eq (sameCellsBut_trans hst htu) fun j hj => ?_
  rw [hu j hj, ht j hj, hf j hj]

/-- Two requests have the effect of one where the second changes no cell. -/
theorem sameEffect_once_twice {i : Instr} {s : State} (hi : drawsOnly i = true)
    (h : NextWith (exec i s) fun t => NextWith (exec i t) fun u => u.buf = t.buf) :
    SameEffect (runAll [i] s) (runAll [i, i] s) := by
  obtain ⟨t, ht, u, hu, hbuf⟩ := h
  obtain ⟨hconfig, _, ⟨htrace, hdraws⟩, _⟩ := (exec_bufferOnly hi t).of_eq hu
  exact ⟨t, u, by simp [runAll, ht], by simp [runAll, ht, hu], hbuf, hconfig, htrace, hdraws⟩

/-- Two requests have no effect where the second restores the buffer. -/
theorem sameEffect_none_twice {i : Instr} {s : State} (hi : drawsOnly i = true)
    (h : NextWith (exec i s) fun t => NextWith (exec i t) fun u => u.buf = s.buf) :
    SameEffect (.next s) (runAll [i, i] s) := by
  obtain ⟨t, ht, u, hu, hbuf⟩ := h
  obtain ⟨hst, _, hsilent, _⟩ := (exec_bufferOnly hi s).of_eq ht
  obtain ⟨htu, _, hsilent', _⟩ := (exec_bufferOnly hi t).of_eq hu
  obtain ⟨htrace, hdraws⟩ := hsilent.trans hsilent'
  exact ⟨s, u, rfl, by simp [runAll, ht, hu], hbuf, hst.trans htu, htrace, hdraws⟩

end Sys2Proof.Machine
end

section
/-! SUPPORT. What the rules of the drawing operations make of one cell (spec/10_state.md R18, R19;
spec/41_formatter_draw.md R95, R96, R99, R100, R107), and the cells as sent where the buffer meets R20 (R92). -/

namespace Sys2Proof.Machine

open Sys2Proof.Safety

/-! ### Patterns -/

/-- R18, R96: the pattern of a digit, empty above 15, with the dot ORed in. -/
theorem digitMask_eq (value : Operand) (dot : Bool) :
    digitMask value dot =
      (if value.toNat ≤ 15 then segTable.getD value.toNat 0 else 0x00#8) ||| (if dot then 0x80#8 else 0x00#8) := by
  have hle : value ≤ Config.valueMax ↔ value.toNat ≤ 15 := BitVec.le_def
  simp only [digitMask, hle]
  cases dot with
  | true => rfl
  | false => exact BitVec.or_zero.symm

/-- R107: the OPEN pattern of `drawLines2` is one of three. -/
theorem cellOfMask_maskLines2 :
    cellOfMask maskLines2 = 0x0009 ∨ cellOfMask maskLines2 = 0x0041 ∨ cellOfMask maskLines2 = 0x0048 := by
  unfold maskLines2
  cases Config.lines2Bars with
  | topBottom => exact .inl rfl
  | topMiddle => exact .inr (.inl rfl)
  | middleBottom => exact .inr (.inr rfl)

/-- A dark colon toggles to lit and a lit one to dark (R95). -/
theorem toggledColon_toggledColon {c : Cell} (hc : c = 0x0000 ∨ c = 0x0002) : toggledColon (toggledColon c) = c := by
  rcases hc with rfl | rfl <;> rfl

/-! ### The dot (R99, R100) -/

theorem getLsbD_dotBit (k : Nat) : (0x0080#16).getLsbD k = decide (k = 7) := by
  rw [show 0x0080#16 = BitVec.twoPow 16 7 from rfl, BitVec.getLsbD_twoPow]
  simp [eq_comm]

theorem getLsbD_withDot (dot : Bool) (c : Cell) (k : Nat) :
    (withDot dot c).getLsbD k = if k = 7 then dot else c.getLsbD k := by
  cases dot with
  | true =>
    have hbits : (withDot true c).getLsbD k = (c.getLsbD k || decide (k = 7)) := by
      rw [← getLsbD_dotBit, ← BitVec.getLsbD_or]
      rfl
    rw [hbits]
    by_cases hk : k = 7 <;> simp [hk]
  | false =>
    have hbits : (withDot false c).getLsbD k = (c.getLsbD k && (decide (k < 16) && !decide (k = 7))) := by
      rw [← getLsbD_dotBit, ← BitVec.getLsbD_not, ← BitVec.getLsbD_and]
      rfl
    rw [hbits]
    by_cases hk : k = 7
    · simp [hk]
    · simpa [hk] using BitVec.lt_of_getLsbD

theorem getLsbD_invertedDot (c : Cell) (k : Nat) :
    (invertedDot c).getLsbD k = if k = 7 then !c.getLsbD k else c.getLsbD k := by
  have hbits : (invertedDot c).getLsbD k = (c.getLsbD k ^^ decide (k = 7)) := by
    rw [← getLsbD_dotBit, ← BitVec.getLsbD_xor]
    rfl
  rw [hbits]
  by_cases hk : k = 7 <;> simp [hk]

/-- The bits of a cell that takes another value `d` under a guard, where `d` differs from it in the dot alone. -/
theorem getLsbD_ite_of_dot {p q : Prop} [Decidable p] [Decidable q] {c d : Cell} {k : Nat} {dot : Bool}
    (hd : d.getLsbD k = if k = 7 then dot else c.getLsbD k) :
    (if p ∧ q then d else c).getLsbD k = if p ∧ q ∧ k = 7 then dot else c.getLsbD k := by
  split
  next h =>
    obtain ⟨hp, hq⟩ := h
    rw [hd]
    exact if_congr ⟨fun hk => ⟨hp, hq, hk⟩, fun hk => hk.2.2⟩ rfl rfl
  next h => rw [if_neg fun hk => h ⟨hk.1, hk.2.1⟩]

theorem withDot_withDot (dot : Bool) (c : Cell) : withDot dot (withDot dot c) = withDot dot c := by
  apply BitVec.eq_of_getLsbD_eq
  intro k _
  simp only [getLsbD_withDot]
  split <;> rfl

theorem invertedDot_invertedDot (c : Cell) : invertedDot (invertedDot c) = c := by
  rw [invertedDot, invertedDot, BitVec.xor_assoc, BitVec.xor_self, BitVec.xor_zero]

/-- R110: the rule of an idempotent operation is idempotent; but for the dot's it does not even read the cell. -/
theorem cellRule_idempotent {i : Instr} (hi : idempotentOp i = true) :
    ∃ f, cellRule i = some f ∧ ∀ c, f (f c) = f c := by
  cases i with
  | drawDot pos dot => exact ⟨_, rfl, withDot_withDot dot⟩
  | drawColon | drawDigit | clearDigit | clearDigits | drawHyphen | drawOver | drawUnder | drawLineUpper
  | drawLineMiddle | drawLineLower | drawLines2 | drawLines3 => exact ⟨_, rfl, fun _ => rfl⟩
  | _ => cases hi

/-- R110: the second request of an idempotent operation changes no cell. -/
theorem exec_twice_of_idempotentOp {i : Instr} (hi : idempotentOp i = true) (s : State) :
    NextWith (exec i s) fun t => NextWith (exec i t) fun u => u.buf = t.buf := by
  obtain ⟨f, hrule, hf⟩ := cellRule_idempotent hi
  exact exec_twice_of_idempotent hrule hf s

/-! ### The cells as sent -/

/-- R92: under R20 all bytes of a flush but the low bytes of cells 0 to 4 are zero. -/
theorem flush_bytes_of_bufferInv {s : State} (hs : BufferInv s) :
    s.buf.toList.flatMap cellBytes =
      [s.buf[0].extractLsb' 0 8, 0x00, s.buf[1].extractLsb' 0 8, 0x00, s.buf[2].extractLsb' 0 8, 0x00,
        s.buf[3].extractLsb' 0 8, 0x00, s.buf[4].extractLsb' 0 8, 0x00, 0, 0, 0, 0, 0, 0] := by
  obtain ⟨high, ⟨z5, z6, z7⟩, _⟩ := hs
  have hcell (i : Fin 8) : [s.buf[i].extractLsb' 0 8, s.buf[i].extractLsb' 8 8] = [s.buf[i].extractLsb' 0 8, 0] := by
    rw [high i]; rfl
  have written : (List.finRange 8).flatMap (fun i => [s.buf[i].extractLsb' 0 8, (0 : Byte)]) =
      [s.buf[0].extractLsb' 0 8, 0, s.buf[1].extractLsb' 0 8, 0, s.buf[2].extractLsb' 0 8, 0,
        s.buf[3].extractLsb' 0 8, 0, s.buf[4].extractLsb' 0 8, 0, s.buf[5].extractLsb' 0 8, 0,
        s.buf[6].extractLsb' 0 8, 0, s.buf[7].extractLsb' 0 8, 0] := rfl
  simp only [flush_bytes, hcell]
  rw [written, z5, z6, z7]
  rfl

end Sys2Proof.Machine
end

section
/-! SUPPORT. The statements about the drawing operations (spec/41_formatter_draw.md). -/

namespace Sys2Proof.Machine

open Sys2Proof.Safety

/-! ### Writing the buffer out -/

/-- Settles O14: a flush is one transaction of the cells' bytes; the drawing and printing operations are silent. -/
theorem writeDisplaySendsEveryCell : Obligations.WriteDisplaySendsEveryCell := by
  refine ⟨encoded_of_encode_eq fun _ => rfl, fun s => ?write, fun i s hi => ?silent⟩
  case write =>
    have hsends : Sends (0x00 :: s.buf.toList.flatMap cellBytes) s (s.flush.respond true) := transaction_sends s _
    have hlength := length_of_sends hsends
    rw [flush_bytes_written] at hlength
    refine ⟨_, rfl, rfl, ⟨rfl, rfl, rfl, rfl, rfl⟩, ⟨rfl, rfl⟩, hlength, flush_bytes s ▸ hsends, fun hs => ?_⟩
    exact flush_bytes_of_bufferInv hs ▸ hsends
  case silent =>
    exact (exec_bufferOnly hi s).mono fun t ⟨_, _, hsilent, _⟩ => hsilent

/-- Settles O15: a colon write is one transaction of the colon cell's bytes. -/
theorem writeColonSendsColonCell : Obligations.WriteColonSendsColonCell := by
  refine ⟨encoded_of_encode_eq fun _ => rfl, fun s => ⟨rfl, ?_⟩⟩
  have hsends : Sends [0x04, cellLow s.buf[Config.colonCell], cellHigh s.buf[Config.colonCell]] s
      ((s.memWrite 0x04 2 s.buf[2]).respond true) := transaction_sends s _
  refine ⟨_, rfl, rfl, ⟨rfl, rfl, rfl, rfl, rfl⟩, ⟨rfl, rfl⟩, length_of_sends hsends, hsends, fun hs => ?_⟩
  obtain ⟨hlow, hhigh⟩ := colonWrite_legal s.busAddr hs
  rw [hhigh] at hsends
  rcases hlow with hdark | hlit
  · rw [hdark] at hsends
    exact .inr hsends
  · rw [hlit] at hsends
    exact .inl hsends

/-! ### The colon -/

/-- Settles O16, from the rule of `drawColon`. -/
theorem drawColonWritesColonCell : Obligations.DrawColonWritesColonCell := by
  refine ⟨encoded_of_encode_eq fun _ => rfl, fun status s => ?_⟩
  refine (exec_of_cellRule rfl s).mono fun t ⟨hcells, hframe⟩ => ⟨?_, hframe⟩
  refine (hcells Config.colonCell (List.mem_singleton_self _)).trans ?_
  cases status <;> rfl

/-- Settles O17, from the rule of `toggleColon` and the rule applied twice. -/
theorem toggleColonFlipsColonCell : Obligations.ToggleColonFlipsColonCell := by
  refine ⟨encoded_of_encode_eq fun _ => rfl, fun s => ?_⟩
  have hrule := exec_of_cellRule (i := .toggleColon) rfl s
  refine (hrule.and (exec_twice_of_involutive rfl s)).mono
    fun t ⟨⟨hcells, hframe⟩, htwice⟩ => ⟨hcells Config.colonCell (List.mem_singleton_self _), hframe,
      htwice.mono fun u hu hcolon => hu fun j hj => ?_⟩
  obtain rfl : j = Config.colonCell := List.mem_singleton.1 hj
  exact toggledColon_toggledColon hcolon

/-! ### Digits, dots and bars -/

/-- Settles O18: above 3 a position selects no cell. -/
theorem positionsAboveThreeAreIgnored : Obligations.PositionsAboveThreeAreIgnored := by
  intro pos value dot s hpos
  have hnil : (posCell pos).toList = [] := by rw [posCell_eq_none_iff.2 hpos, Option.toList_none]
  have ignored {i : Instr} {f : Cell → Cell} (h : cellRule i = some f)
      (hcells : writtenCells i = (posCell pos).toList) : exec i s = .next (s.respond true) :=
    exec_of_cellRule_of_nil h (hcells.trans hnil) s
  simp only [List.forall_mem_cons]
  exact ⟨ignored rfl rfl, ignored rfl rfl, ignored rfl rfl, ignored rfl rfl, ignored rfl rfl, ignored rfl rfl,
    ignored rfl rfl, nofun⟩

/-- Settles O19, from the rule of `drawDigit` and its pattern. -/
theorem drawDigitReplacesCell : Obligations.DrawDigitReplacesCell := by
  refine ⟨encoded_of_encode_eq fun _ => rfl, fun pos value dot s => ?_⟩
  have hdraw := exec_of_cellRule_of_pos (i := .drawDigit pos value dot) rfl rfl s
  rw [digitMask_eq] at hdraw
  exact hdraw

/-- Settles O20, from the rule of `clearDigit`. -/
theorem clearDigitZeroesCell : Obligations.ClearDigitZeroesCell :=
  ⟨encoded_of_encode_eq fun _ => rfl, fun _ s => exec_of_cellRule_const_of_pos rfl rfl s⟩

/-- Settles O21, from the rule of `clearDigits`. -/
theorem clearDigitsZeroesDigitCells : Obligations.ClearDigitsZeroesDigitCells :=
  ⟨encoded_of_encode_eq fun _ => rfl, fun s =>
    ((exec_of_cellRule_const_of_digits rfl rfl s).and (exec_twice_of_idempotentOp rfl s)).mono
      fun _ ⟨⟨hcells, hframe⟩, htwice⟩ => ⟨hcells, hframe, htwice⟩⟩

/-- Settles O22, from the rule of `drawDot` bit by bit. -/
theorem drawDotSetsBitSeven : Obligations.DrawDotSetsBitSeven := by
  refine ⟨encoded_of_encode_eq fun _ => rfl, fun pos dot s => ?_⟩
  refine (exec_of_cellRule_of_pos rfl rfl s).mono fun t ⟨hcells, hframe⟩ => ⟨fun i k => ?_, hframe⟩
  rw [hcells i]
  exact getLsbD_ite_of_dot (getLsbD_withDot dot _ k)

/-- Settles O23, from the rule of `toggleDot` bit by bit, and the rule applied twice. -/
theorem toggleDotInvertsBitSeven : Obligations.ToggleDotInvertsBitSeven := by
  refine ⟨encoded_of_encode_eq fun _ => rfl, fun pos s => ?_⟩
  have hpos := exec_of_cellRule_of_pos (i := .toggleDot pos) rfl rfl s
  refine (hpos.and (exec_twice_of_involutive rfl s)).mono fun t ⟨⟨hcells, hframe⟩, htwice⟩ =>
    ⟨fun i k => ?_, hframe, htwice.mono fun u hu => hu fun j _ => invertedDot_invertedDot _⟩
  rw [hcells i]
  exact getLsbD_ite_of_dot (getLsbD_invertedDot _ k)

/-- Settles O24, from the rules of the three bars. -/
theorem barsReplaceCell : Obligations.BarsReplaceCell := by
  refine ⟨encoded_of_encode_eq fun _ => rfl, encoded_of_encode_eq fun _ => rfl, encoded_of_encode_eq fun _ => rfl,
    fun pos s => ?_⟩
  simp only [List.forall_mem_cons]
  exact ⟨exec_of_cellRule_const_of_pos rfl rfl s, exec_of_cellRule_const_of_pos rfl rfl s,
    exec_of_cellRule_const_of_pos rfl rfl s, nofun⟩

/-- Settles O25, from the rules of the five lines. -/
theorem linesReplaceDigitCells : Obligations.LinesReplaceDigitCells := by
  refine ⟨encoded_of_encode_eq fun _ => rfl, encoded_of_encode_eq fun _ => rfl, encoded_of_encode_eq fun _ => rfl,
    encoded_of_encode_eq fun _ => rfl, encoded_of_encode_eq fun _ => rfl, cellOfMask maskLines2,
    cellOfMask_maskLines2, fun s => ?_⟩
  simp only [List.forall_mem_cons]
  exact ⟨exec_of_cellRule_const_of_digits rfl rfl s, exec_of_cellRule_const_of_digits rfl rfl s,
    exec_of_cellRule_const_of_digits rfl rfl s, exec_of_cellRule_const_of_digits rfl rfl s,
    exec_of_cellRule_const_of_digits rfl rfl s, nofun⟩

/-! ### All drawing operations -/

/-- Settles O34: the cells an operation of this kind writes are digit cells, or the colon cell for the two colon
operations. -/
theorem drawingOperationsStayInTheBuffer : Obligations.DrawingOperationsStayInTheBuffer := by
  intro i s hi
  refine (exec_bufferOnly hi s).mono fun t ⟨hconfig, hcells, hsilent, _, hinputs⟩ => ?_
  refine ⟨hconfig, hsilent, hinputs, ?_⟩
  rcases writtenCells_cases i with ⟨_, rfl⟩ | rfl | ⟨hcolon, hop⟩ | hsub
  · cases hi
  · cases hi
  · refine ⟨hcells.mono (by rw [hcolon]; decide), fun hdraw htoggle => ?_⟩
    rcases hop with ⟨b, rfl⟩ | rfl
    · exact absurd rfl (hdraw b)
    · exact absurd rfl htoggle
  · have hdigits : SameCellsBut digitCells s t := hcells.mono hsub
    exact ⟨hdigits.mono (by decide), fun _ _ => hdigits 2 (by decide)⟩

/-- Settles O40: idempotence and involution of the rules. -/
theorem idempotenceAndInvolution : Obligations.IdempotenceAndInvolution := by
  refine ⟨fun i s hi => ?idempotent, fun pos s => ?toggleDot, fun s hs => ?toggleColon⟩
  case idempotent =>
    obtain ⟨f, hrule, _⟩ := cellRule_idempotent hi
    exact sameEffect_once_twice (drawsOnly_of_cellRule hrule) (exec_twice_of_idempotentOp hi s)
  case toggleDot =>
    exact sameEffect_none_twice rfl ((toggleDotInvertsBitSeven.2 pos s).mono fun t ⟨_, _, htwice⟩ => htwice)
  case toggleColon =>
    obtain ⟨_, _, hcolon⟩ := hs
    refine sameEffect_none_twice rfl ((toggleColonFlipsColonCell.2 s).mono fun t ⟨_, _, htwice⟩ => ?_)
    exact htwice.mono fun u hu => hu hcolon

end Sys2Proof.Machine
end

section
/-! SUPPORT. What `printNumber` leaves in the digit cells (spec/42_formatter_print.md R122): one lemma per case of its
answer, the rendered number by how many digits the loop drew. -/

namespace Sys2Proof.Machine

open Sys2Proof.Safety

/-! ### The frame and the two rejects -/

/-- `printNumber` is a buffer transform on the digit cells that answers 1 just for a number it shows (R120, R122). -/
theorem printNumber_bufferOnly {number : Num32} {base : Operand} (padding : Bool) (s : State) {ok : Bool}
    (hok : ok = true ↔ (2 ≤ base.toNat ∧ base.toNat ≤ 16) ∧ number.toInt.natAbs < base.toNat ^ 4) :
    NextWith (exec (.printNumber number base padding) s) (BufferOnly ok digitCells s) := by
  have hcause : decide (rejectCause (.printNumber number base padding) = none) = ok := by
    rw [Bool.eq_iff_iff, decide_eq_true_iff, hok, rejectCause_printNumber_eq_none_iff, baseAccepted_iff,
      magnitude_toNat]
  exact hcause ▸ exec_bufferOnly rfl s

/-- R122 steps 1 and 2: a rejected base leaves what the clear left. -/
theorem printNumber_cells_of_base_rejected {number : Num32} {base : Operand} {padding : Bool} {s : State}
    (hbase : base.toNat < 2 ∨ 16 < base.toNat) :
    NextWith (exec (.printNumber number base padding) s) fun t => ∀ i ∈ digitCells, t.buf[i] = 0x0000 := by
  rcases execPrintNumber_cases number base padding s with ⟨_, h⟩ | ⟨_, _, _, haccepted, _⟩
  · exact ⟨_, h, fun i hi => (clearDigitsStep_getElem s i).trans (if_pos hi)⟩
  · have := (baseAccepted_iff base).1 haccepted
    omega

/-- R122 step 5: more than four digits leave a line of bars, by the sign. -/
theorem printNumber_cells_of_overflow {number : Num32} {base : Operand} {padding : Bool} {s : State}
    (h2 : 2 ≤ base.toNat) (h16 : base.toNat ≤ 16) (hover : base.toNat ^ 4 ≤ number.toInt.natAbs) :
    NextWith (exec (.printNumber number base padding) s) fun t =>
      ∀ i ∈ digitCells, t.buf[i] = if number.toInt < 0 then 0x0008 else 0x0001 := by
  rcases execPrintNumber_cases number base padding s with ⟨hbase, _⟩ | ⟨s1, left, _, _, hloop, ⟨_, h⟩ | ⟨hleft, _⟩⟩
  · rw [(baseAccepted_iff base).2 ⟨h2, h16⟩] at hbase
    cases hbase
  · refine ⟨_, h, fun i hi => ((line_getElem s1 _ i).trans (if_pos hi)).trans ?_⟩
    simp only [isNegative_iff]
    split <;> rfl
  · have := (digitLoop_left_eq_zero_iff h2 h16 hloop).1 hleft
    rw [magnitude_toNat] at this
    omega

/-! ### The digits drawn -/

/-- The digit of weight `base ^ j` is drawn: the last one always, every one with padding, else while the number
reaches that far (R122 step 4). -/
def Shown (padding : Bool) (base m j : Nat) : Prop := padding = true ∨ j = 0 ∨ m / base ^ j ≠ 0

theorem rawOf_inj {p q : Nat} : rawOf p = rawOf q ↔ p = q := by
  unfold rawOf
  split <;> split <;> omega

theorem cellOfWeight_val (j : Fin 4) : (cellOfWeight j).val = rawOf (3 - j.val) := by
  revert j; decide

theorem cellOfWeight_mem_digitCells (j : Fin 4) : cellOfWeight j ∈ digitCells := by
  revert j; decide

/-- The loop draws the shown digits and no other, and leaves the cells to their left as they were. -/
theorem digitLoop_cells {base : Nat} (h2 : 2 ≤ base) (h16 : base ≤ 16) {padding : Bool} {m : Nat} {s s' : State}
    {left free : Nat} (h : digitLoop base padding 4 m s = (s', left, free)) :
    free ≤ 3 ∧ (∀ j < 4, j < 4 - free ↔ Shown padding base m j) ∧
      ∀ j : Fin 4, s'.buf[cellOfWeight j] =
        if j.val < 4 - free then (segTable.getD (digitOf m base j) 0).setWidth 16 else s.buf[cellOfWeight j] := by
  obtain ⟨hfree, hleft, hstop, hgo, hcells⟩ := digitLoop_spec h2 h16 padding 3 m (Nat.le_refl 3) s s' left free h
  refine ⟨hfree, fun j hj => ⟨fun hdrawn => ?_, fun hshown => ?_⟩, fun j => ?_⟩
  · rcases Nat.eq_zero_or_pos j with rfl | hpos
    · exact .inr (.inl rfl)
    · exact (hgo j hpos hdrawn).imp_right .inr
  · -- A digit that was not drawn is one the loop stopped before, with nothing left.
    by_contra hnot
    obtain ⟨rfl, rfl⟩ := hstop (by omega)
    have hzero : m / base ^ j = 0 :=
      Nat.le_zero.1 (hleft ▸ Nat.div_le_div_left (Nat.pow_le_pow_right (by omega) (by omega))
        (Nat.pow_pos (by omega)))
    rcases hshown with hp | rfl | hne
    · cases hp
    · omega
    · exact hne hzero
  · have hweight : 3 - (if (cellOfWeight j).val < 2 then (cellOfWeight j).val else (cellOfWeight j).val - 1) = j := by
      revert j; decide
    have hdrawn : (∃ i, i < 3 + 1 - free ∧ (cellOfWeight j).val = rawOf (3 - i)) ↔ j.val < 4 - free := by
      simp only [cellOfWeight_val, rawOf_inj]
      exact ⟨fun ⟨i, hi, hij⟩ => by omega, fun hj => ⟨j, hj, rfl⟩⟩
    rw [hcells, hweight]
    exact if_congr hdrawn rfl rfl

/-! ### The rendered number -/

/-- The sign goes into the free slot next to the digits, or onto the last digit as its dot (R122 step 6). -/
theorem signStep_cell (s : State) {free : Nat} (hfree : free ≤ 3) (j : Fin 4) :
    (s.signStep free).buf[cellOfWeight j] =
      if free = 0 ∧ j = 0 then s.buf[cellOfWeight j] ||| 0x0080
      else if j.val = 4 - free then 0x0040 else s.buf[cellOfWeight j] := by
  cases free with
  | zero =>
    have hlast : (3#8).toNat ≤ 3 ∧ (cellOfWeight j).val = rawOf (3#8).toNat ↔ 0 = 0 ∧ j = 0 := by
      revert j; decide
    rw [if_neg (show ¬j.val = 4 - 0 by omega)]
    exact (dotStep_getElem s 3 true _).trans (if_congr hlast rfl rfl)
  | succ p =>
    have hpos : (BitVec.ofNat 8 p).toNat = p := Nat.mod_eq_of_lt (by omega)
    have hslot : p ≤ 3 ∧ (cellOfWeight j).val = rawOf p ↔ j.val = 4 - (p + 1) := by
      rw [cellOfWeight_val, rawOf_inj]
      omega
    rw [if_neg (by simp), State.signStep, putDigit_getElem, hpos]
    exact if_congr hslot rfl rfl

/-- The cell of weight `base ^ j` of a number rendered in `k` digits: a digit, with the dot where the sign has no slot
of its own; the hyphen of the sign; or blank (R122 steps 4 and 6). -/
def renderedCell (neg : Prop) [Decidable neg] (m base k : Nat) (j : Fin 4) : Cell :=
  if j.val < k then
    (segTable.getD (digitOf m base j) 0 ||| (if neg ∧ k = 4 ∧ j = 0 then 0x80#8 else 0x00#8)).setWidth 16
  else if neg ∧ j.val = k then 0x0040 else 0x0000

/-- The sign step on a number drawn in `4 - free` digits makes it the rendered negative number. -/
theorem renderedCell_of_signed {neg : Prop} [Decidable neg] (hneg : neg) {m base free : Nat} (hfree : free ≤ 3)
    (j : Fin 4) {c : Cell}
    (hc : c = if j.val < 4 - free then (segTable.getD (digitOf m base j) 0).setWidth 16 else 0x0000) :
    (if free = 0 ∧ j = 0 then c ||| 0x0080 else if j.val = 4 - free then 0x0040 else c) =
      renderedCell neg m base (4 - free) j := by
  rw [hc, renderedCell]
  by_cases hj : j.val < 4 - free
  · have hdot : free = 0 ∧ j = 0 ↔ neg ∧ 4 - free = 4 ∧ j = 0 := by
      rw [and_iff_right hneg]
      omega
    rw [if_pos hj, if_pos hj, if_neg hj.ne, if_congr hdot rfl rfl]
    split
    · rw [BitVec.setWidth_or]
      rfl
    · rw [BitVec.or_zero]
  · simp [hj, hneg, show ¬(free = 0 ∧ j = 0) by omega]

/-- The whole of the digit cells where the number fits: as many digits as are shown, and the sign. -/
theorem printNumber_cells_of_shown {number : Num32} {base : Operand} {padding : Bool} {s : State}
    (h2 : 2 ≤ base.toNat) (h16 : base.toNat ≤ 16) (hfits : number.toInt.natAbs < base.toNat ^ 4) :
    NextWith (exec (.printNumber number base padding) s) fun t =>
      ∃ k ≤ 4, (∀ j < 4, j < k ↔ Shown padding base.toNat number.toInt.natAbs j) ∧
        ∀ j : Fin 4, t.buf[cellOfWeight j] =
          renderedCell (number.toInt < 0) number.toInt.natAbs base.toNat k j := by
  rcases execPrintNumber_cases number base padding s with ⟨hbase, _⟩ | ⟨s1, left, free, _, hloop, h⟩
  · rw [(baseAccepted_iff base).2 ⟨h2, h16⟩] at hbase
    cases hbase
  rw [magnitude_toNat] at hloop
  have hleft := (digitLoop_left_eq_zero_iff h2 h16 hloop).2 hfits
  rcases h with ⟨hne, _⟩ | ⟨_, h⟩
  · exact absurd hleft hne
  obtain ⟨hfree, hshown, hcells⟩ := digitLoop_cells h2 h16 hloop
  refine ⟨_, h, 4 - free, by omega, hshown, fun j => ?_⟩
  have hblank : s.clearDigitsStep.buf[cellOfWeight j] = 0x0000 :=
    (clearDigitsStep_getElem s _).trans (if_pos (cellOfWeight_mem_digitCells j))
  have hdigit := hcells j
  rw [hblank] at hdigit
  rw [State.respond_buf, apply_ite State.buf]
  by_cases hneg : number.toInt < 0
  · rw [if_pos ((isNegative_iff number).2 hneg), signStep_cell s1 hfree j, hdigit]
    exact renderedCell_of_signed hneg hfree j rfl
  · rw [if_neg fun h => hneg ((isNegative_iff number).1 h), hdigit]
    simp [renderedCell, hneg]

end Sys2Proof.Machine
end

section
/-! SUPPORT. What `printTime` leaves in the digit cells (spec/42_formatter_print.md R123). -/

namespace Sys2Proof.Machine

open Sys2Proof.Safety

/-! ### Tens and units -/

theorem tens_eq (x : Operand) : tens x = BitVec.ofNat 8 (x.toNat / 10) :=
  BitVec.eq_of_toNat_eq (by simp [tens]; omega)

theorem units_eq (x : Operand) : units x = BitVec.ofNat 8 (x.toNat % 10) :=
  BitVec.eq_of_toNat_eq (by simp [units]; omega)

/-- The tens of an operand up to 99 are a digit the table shows (R18). -/
theorem digitMask_tens {x : Operand} (hx : x.toNat ≤ 99) :
    digitMask (tens x) false = segTable.getD (x.toNat / 10) 0x00 := by
  rw [tens_eq, digitMask_ofNat (by omega)]

theorem digitMask_units (x : Operand) : digitMask (units x) false = segTable.getD (x.toNat % 10) 0x00 := by
  rw [units_eq, digitMask_ofNat (by omega)]

/-- Four digits drawn in order stand in the four digit cells in order (R40, R96). -/
theorem fourDigitSteps_cells (s : State) (v0 v1 v2 v3 : Operand) {t : State}
    (ht : t = (((s.digitStep 0 v0 false).digitStep 1 v1 false).digitStep 2 v2 false).digitStep 3 v3 false) :
    t.buf[0] = (digitMask v0 false).setWidth 16 ∧ t.buf[1] = (digitMask v1 false).setWidth 16 ∧
      t.buf[3] = (digitMask v2 false).setWidth 16 ∧ t.buf[4] = (digitMask v3 false).setWidth 16 := by
  have hcell (j : Fin 8) := congrArg (fun u : State => u.buf[j]) ht
  simp only [digitStep_getElem] at hcell
  exact ⟨hcell 0, hcell 1, hcell 3, hcell 4⟩

/-- `printTime` is a buffer transform on the digit cells that answers 1 exactly for operands up to 99 (R120, R123). -/
theorem printTime_bufferOnly {first last : Operand} (s : State) {ok : Bool}
    (hok : ok = true ↔ first.toNat ≤ 99 ∧ last.toNat ≤ 99) :
    NextWith (exec (.printTime first last) s) (BufferOnly ok digitCells s) := by
  have hcause : decide (rejectCause (.printTime first last) = none) = ok := by
    rw [Bool.eq_iff_iff, decide_eq_true_iff, hok, rejectCause_printTime_eq_none_iff, timeAccepted_iff]
  exact hcause ▸ exec_bufferOnly rfl s

/-- R123: a rejected operand leaves what the clear left. -/
theorem printTime_cells_of_rejected {first last : Operand} {s : State} (hrange : 99 < first.toNat ∨ 99 < last.toNat) :
    NextWith (exec (.printTime first last) s) fun t => ∀ i ∈ digitCells, t.buf[i] = 0x0000 := by
  rcases execPrintTime_cases first last s with ⟨_, h⟩ | ⟨haccepted, _⟩
  · exact ⟨_, h, fun i hi => (clearDigitsStep_getElem s i).trans (if_pos hi)⟩
  · have := (timeAccepted_iff first last).1 haccepted
    omega

/-- R123: tens and units of both operands, in order. -/
theorem printTime_cells_of_shown {first last : Operand} {s : State} (hfirst : first.toNat ≤ 99)
    (hlast : last.toNat ≤ 99) :
    NextWith (exec (.printTime first last) s) fun t =>
      t.buf[0] = (segTable.getD (first.toNat / 10) 0).setWidth 16 ∧
        t.buf[1] = (segTable.getD (first.toNat % 10) 0).setWidth 16 ∧
        t.buf[3] = (segTable.getD (last.toNat / 10) 0).setWidth 16 ∧
        t.buf[4] = (segTable.getD (last.toNat % 10) 0).setWidth 16 := by
  rcases execPrintTime_cases first last s with ⟨hrange, _⟩ | ⟨_, h⟩
  · rw [(timeAccepted_iff first last).2 ⟨hfirst, hlast⟩] at hrange
    cases hrange
  · have hcells := fourDigitSteps_cells s.clearDigitsStep (tens first) (units first) (tens last) (units last) rfl
    rw [digitMask_tens hfirst, digitMask_tens hlast, digitMask_units, digitMask_units] at hcells
    exact ⟨_, h, hcells⟩

end Sys2Proof.Machine
end

section
/-! SUPPORT. The shape of a rendered number by the list of its digits (spec/42_formatter_print.md R126). -/

namespace Sys2Proof.Machine

open Sys2Proof.Safety

/-- The digits of a number, lowest first; zero has one (R126). -/
def digitsOf (base m : Nat) : List Nat := if m = 0 then [0] else Nat.digits base m

/-- A number has as many digits as it shows without padding. -/
theorem lt_length_digitsOf_iff {base : Nat} (h2 : 2 ≤ base) (m j : Nat) :
    j < (digitsOf base m).length ↔ Shown false base m j := by
  unfold digitsOf Shown
  split
  next hm => simp [hm]
  next hm =>
    have hpos : 0 < base ^ j := Nat.pow_pos (by omega)
    have hzero : j = 0 → base ^ j ≤ m := fun hj => by rw [hj]; exact Nat.pos_of_ne_zero hm
    rw [Nat.lt_digits_length_iff h2, Ne, Nat.div_eq_zero_iff_lt hpos, not_lt, or_iff_right Bool.false_ne_true,
      or_iff_right_of_imp hzero]

theorem getD_digitsOf {base : Nat} (h2 : 2 ≤ base) (m j : Nat) : (digitsOf base m).getD j 0 = digitOf m base j := by
  unfold digitsOf digitOf
  split
  next hm => cases j <;> simp [hm]
  next => exact Nat.getD_digits m j h2

theorem length_digitsOf_pos {base : Nat} (h2 : 2 ≤ base) (m : Nat) : 1 ≤ (digitsOf base m).length :=
  (lt_length_digitsOf_iff h2 m 0).2 (.inr (.inl rfl))

theorem length_digitsOf_le {base : Nat} (h2 : 2 ≤ base) {m : Nat} (hfits : m < base ^ 4) :
    (digitsOf base m).length ≤ 4 := by
  rw [← not_lt, lt_length_digitsOf_iff h2]
  rintro (hp | h0 | hne)
  · cases hp
  · cases h0
  · exact hne (Nat.div_eq_of_lt hfits)

/-- The cells of a rendered number, by the number of its digits (R126): with padding all four positions are drawn,
without it exactly the number's own digits. -/
theorem renderedCell_eq_shape (neg : Prop) [Decidable neg] {padding : Bool} {m base k : Nat} (h2 : 2 ≤ base)
    (hfits : m < base ^ 4) (hk : k ≤ 4) (hshown : ∀ j < 4, j < k ↔ Shown padding base m j) (j : Fin 4) :
    renderedCell neg m base k j =
      if j.val < (digitsOf base m).length then
        (segTable.getD ((digitsOf base m).getD j 0) 0 |||
          (if neg ∧ (padding = true ∨ (digitsOf base m).length = 4) ∧ j = 0 then 0x80#8 else 0x00#8)).setWidth 16
      else if padding = true then 0x003F
      else if neg ∧ j.val = (digitsOf base m).length then 0x0040
      else 0x0000 := by
  have hpos := length_digitsOf_pos h2 m
  have hle := length_digitsOf_le h2 hfits
  have hdigits := lt_length_digitsOf_iff h2 m
  rw [getD_digitsOf h2]
  cases padding with
  | false =>
    have hlt (i : Nat) (hi : i < 4) : i < k ↔ i < (digitsOf base m).length := (hshown i hi).trans (hdigits i).symm
    have hlength : k = (digitsOf base m).length := by
      have := hlt k
      have := hlt (digitsOf base m).length
      omega
    simp [renderedCell, hlength]
  | true =>
    have hall : 3 < k := (hshown 3 (by decide)).2 (.inl rfl)
    obtain rfl : k = 4 := by omega
    by_cases hj : j.val < (digitsOf base m).length
    · simp [renderedCell, hj]
    · -- A padded position shows the digit 0, and it is not the one that can hold the dot.
      have hzero : digitOf m base j = 0 := by
        have hdiv : m / base ^ j.val = 0 := not_not.1 fun hne => hj ((hdigits j).2 (.inr (.inr hne)))
        rw [digitOf, hdiv, Nat.zero_mod]
      have hfirst : j ≠ 0 := by rintro rfl; exact hj hpos
      simp [renderedCell, hj, hzero, hfirst, segTable]

end Sys2Proof.Machine
end

section
/-! SUPPORT. The statements about `printNumber` and `printTime` (spec/42_formatter_print.md). -/

namespace Sys2Proof.Machine

open Sys2Proof.Safety

/-- Settles O29, from the absolute value of a bit vector. -/
theorem magnitudeIsAbsoluteValue : Obligations.MagnitudeIsAbsoluteValue := magnitude_toNat

/-- Settles O30, from the cells of either answer. -/
theorem printTimeShowsTensAndUnits : Obligations.PrintTimeShowsTensAndUnits := by
  refine ⟨encoded_of_encode_eq fun _ => rfl, fun first last s => ?_⟩
  obtain ⟨t, ht, _⟩ := exec_drawsOnly_frame (i := .printTime first last) s rfl
  refine ⟨t, ht, fun hrange => ?rejected, fun ⟨hfirst, hlast⟩ => ?shown⟩
  case rejected =>
    exact ⟨(printTime_bufferOnly s (iff_of_false Bool.false_ne_true (by omega))).of_eq ht,
      (printTime_cells_of_rejected hrange).of_eq ht⟩
  case shown =>
    exact ⟨(printTime_bufferOnly s (iff_of_true rfl ⟨hfirst, hlast⟩)).of_eq ht,
      (printTime_cells_of_shown hfirst hlast).of_eq ht⟩

/-- Settles O27, from the result bit and the fifteen bounds computed. -/
theorem printNumberRange : Obligations.PrintNumberRange := by
  intro number base padding s h2 h16
  have htable : ∀ b ≤ 16, 2 ≤ b → [15, 80, 255, 624, 1295, 2400, 4095, 6560, 9999, 14640, 20735, 28560, 38415, 50624,
      65535].getD (b - 2) 0 = b ^ 4 - 1 := by decide
  have hpos : 0 < base.toNat ^ 4 := Nat.pow_pos (by omega)
  exact (printNumber_bufferOnly padding s (by rw [decide_eq_true_iff]; omega)).mono
    fun t ⟨_, _, _, hanswer, _⟩ => ⟨hanswer, htable _ h16 h2⟩

/-- Settles O26, from the cells of each answer. -/
theorem printNumberRendersDigitsAndSign : Obligations.PrintNumberRendersDigitsAndSign := by
  refine ⟨encoded_of_encode_eq fun _ => rfl, fun number base padding s => ?_⟩
  obtain ⟨t, ht, _⟩ := exec_drawsOnly_frame (i := .printNumber number base padding) s rfl
  refine ⟨t, ht, fun hbase => ?rejected, fun ⟨h2, h16, hover⟩ => ?overflow, fun ⟨h2, h16, hfits⟩ => ?shown⟩
  case rejected =>
    exact ⟨(printNumber_bufferOnly padding s (iff_of_false Bool.false_ne_true (by omega))).of_eq ht,
      (printNumber_cells_of_base_rejected hbase).of_eq ht⟩
  case overflow =>
    have hbars := (printNumber_cells_of_overflow h2 h16 hover).of_eq ht
    exact ⟨(printNumber_bufferOnly padding s (iff_of_false Bool.false_ne_true (by omega))).of_eq ht,
      fun i hi => ⟨fun hneg => (hbars i hi).trans (if_pos hneg), fun hneg => (hbars i hi).trans (if_neg hneg)⟩⟩
  case shown =>
    refine ⟨(printNumber_bufferOnly padding s (iff_of_true rfl ⟨⟨h2, h16⟩, hfits⟩)).of_eq ht, fun j => ?_⟩
    obtain ⟨k, hk, hshown, hcells⟩ := (printNumber_cells_of_shown h2 h16 hfits).of_eq ht
    have hdot : k = 4 ↔ Shown padding base.toNat number.toInt.natAbs 3 :=
      (show k = 4 ↔ 3 < k by omega).trans (hshown 3 (by decide))
    have hpos : 0 < k := (hshown 0 (by decide)).2 (.inr (.inl rfl))
    rw [hcells j, renderedCell]
    refine ⟨fun hj ⟨hneg, h3, h0⟩ => ?dotted, fun hj hnot => ?plain, fun hj ⟨hneg, hnext⟩ => ?hyphen,
      fun hj hnot => ?blank⟩
    case dotted => rw [if_pos ((hshown j j.isLt).2 hj), if_pos ⟨hneg, hdot.2 h3, h0⟩]
    case plain =>
      rw [if_pos ((hshown j j.isLt).2 hj), if_neg fun ⟨hneg, h4, h0⟩ => hnot ⟨hneg, hdot.1 h4, h0⟩, BitVec.or_zero]
    case hyphen =>
      have hleft : ¬j.val < k := mt (hshown j j.isLt).1 hj
      have hadjacent : j.val - 1 < k := (hshown (j.val - 1) (by omega)).2 hnext
      rw [if_neg hleft, if_pos ⟨hneg, by omega⟩]
    case blank =>
      have hapart : ¬(number.toInt < 0 ∧ j.val = k) := fun ⟨hneg, hjk⟩ =>
        hnot ⟨hneg, (hshown (j.val - 1) (by omega)).1 (by omega)⟩
      rw [if_neg (mt (hshown j j.isLt).1 hj), if_neg hapart]

/-- Settles O28, by how many of the number's digits are shown. -/
theorem printNumberShape : Obligations.PrintNumberShape := by
  intro number base padding s h2 h16 hle
  have hpos : 0 < base.toNat ^ 4 := Nat.pow_pos (by omega)
  have hfits : number.toInt.natAbs < base.toNat ^ 4 := by omega
  refine (printNumber_cells_of_shown h2 h16 hfits).mono fun t ⟨k, hk, hshown, hcells⟩ => ?_
  exact ⟨length_digitsOf_pos h2 _, length_digitsOf_le h2 hfits,
    fun j => (hcells j).trans (renderedCell_eq_shape _ h2 hfits hk hshown j)⟩

end Sys2Proof.Machine
end

section
/-! SUPPORT. The statements about rejects, completion and idling (spec/60_exceptions.md R141, R145, R151) and the reset
event (spec/70_reset_and_hazards.md R160, R161). -/

namespace Sys2Proof.Machine

open Sys2Proof.Safety

/-! ### Rejects (R141) -/

/-- R141, the row of the base: the digit cells stay cleared. -/
theorem printNumber_rejects_base (number : Num32) {base : Operand} (padding : Bool) (s : State)
    (hbase : base.toNat < 2 ∨ 16 < base.toNat) :
    NextWith (exec (.printNumber number base padding) s) fun t =>
      BufferOnly false digitCells s t ∧ ∀ i ∈ digitCells, t.buf[i] = 0x0000 :=
  (printNumber_bufferOnly padding s (iff_of_false Bool.false_ne_true (by omega))).and
    (printNumber_cells_of_base_rejected hbase)

/-- R141, the two rows of the number: a line of bars, by the sign. -/
theorem printNumber_rejects_overflow {number : Num32} {base : Operand} (padding : Bool) (s : State)
    (h2 : 2 ≤ base.toNat) (h16 : base.toNat ≤ 16) (hover : base.toNat ^ 4 ≤ number.toInt.natAbs) :
    NextWith (exec (.printNumber number base padding) s) fun t =>
      BufferOnly false digitCells s t ∧
        ∀ i ∈ digitCells, t.buf[i] = if number.toInt < 0 then 0x0008 else 0x0001 :=
  (printNumber_bufferOnly padding s (iff_of_false Bool.false_ne_true (by omega))).and
    (printNumber_cells_of_overflow h2 h16 hover)

/-- R141, the row of the time: the digit cells stay cleared. -/
theorem printTime_rejects {first last : Operand} (s : State) (hrange : 99 < first.toNat ∨ 99 < last.toNat) :
    NextWith (exec (.printTime first last) s) fun t =>
      BufferOnly false digitCells s t ∧ ∀ i ∈ digitCells, t.buf[i] = 0x0000 :=
  (printTime_bufferOnly s (iff_of_false Bool.false_ne_true (by omega))).and (printTime_cells_of_rejected hrange)

/-- Above the largest number that four digits hold, the magnitude overflows and the sign is positive (R125, R141). -/
theorem overflow_of_gt_bound {base : Nat} (h2 : 2 ≤ base) {n : Int} (h : (base : Int) ^ 4 - 1 < n) :
    base ^ 4 ≤ n.natAbs ∧ ¬n < 0 := by
  have hpos : 0 < base ^ 4 := Nat.pow_pos (by omega)
  rw [← Nat.cast_pow] at h
  omega

/-- Below the smallest number that four digits hold, the magnitude overflows and the sign is negative (R125, R141). -/
theorem overflow_of_lt_neg_bound {base : Nat} (h2 : 2 ≤ base) {n : Int} (h : n < -((base : Int) ^ 4 - 1)) :
    base ^ 4 ≤ n.natAbs ∧ n < 0 := by
  have hpos : 0 < base ^ 4 := Nat.pow_pos (by omega)
  rw [← Nat.cast_pow] at h
  omega

/-- Settles O31, row by row of the table. -/
theorem rejectsLeaveTheTablesState : Obligations.RejectsLeaveTheTablesState := by
  refine ⟨fun number base padding s => printNumber_rejects_base number padding s, ?positive, ?negative,
    fun first last s => printTime_rejects s, ?unassigned⟩
  case positive =>
    intro number base padding s h2 h16 hgt
    obtain ⟨hover, hsign⟩ := overflow_of_gt_bound h2 hgt
    simpa only [if_neg hsign] using printNumber_rejects_overflow padding s h2 h16 hover
  case negative =>
    intro number base padding s h2 h16 hlt
    obtain ⟨hover, hsign⟩ := overflow_of_lt_neg_bound h2 hlt
    simpa only [if_pos hsign] using printNumber_rejects_overflow padding s h2 h16 hover
  case unassigned =>
    intro s w rest hinput hop
    have hdecode := decodeRequest_of_unassigned (opAssigned_eq_false_iff.2 hop)
    exact ⟨_, step_of_decode_error hinput hdecode, rfl, ⟨rfl, rfl, rfl, rfl, rfl⟩, ⟨rfl, rfl⟩, rfl⟩

/-! ### Completion, idling and the reset event -/

/-- Settles O33, by the cases of a step: every operation completes. -/
theorem noStepEverStops : Obligations.NoStepEverStops := by
  intro s
  rcases step_cases s with h | ⟨rest, h | h | ⟨i, h⟩⟩
  · exact ⟨_, h⟩
  · exact ⟨_, h⟩
  · exact ⟨_, h⟩
  · obtain ⟨t, ht, _⟩ := exec_responses i { s with inputs := rest }
    exact ⟨t, h.trans ht⟩

/-- With nothing presented the block idles (R151). -/
theorem step_of_no_input {s : State} (hinput : s.inputs = []) : step s = .next s := by
  simp [step, State.takeInput, hinput]

/-- A reset presented between operations is taken and resets (R160). -/
theorem step_of_reset {s : State} {rest : List HostInput} (hinput : s.inputs = .reset :: rest) :
    step s = .next { s with inputs := rest }.resetEvent := by
  simp [step, State.takeInput, hinput]

/-- Settles O7, from the fields that the reset event leaves. -/
theorem stepIdlesOrResets : Obligations.StepIdlesOrResets := by
  refine ⟨fun _ => step_of_no_input, fun s rest hinput => ⟨_, step_of_reset hinput, fun i => ?cell, ?registers⟩⟩
  case cell => simp
  case registers => exact ⟨rfl, rfl, rfl, rfl, rfl, rfl, rfl, rfl⟩

end Sys2Proof.Machine
end

section
/-! SUPPORT. What an operation makes of `ADDR` (spec/70_reset_and_hazards.md R163): a drawing or printing operation
carries it along unread, and elsewhere it is the operand of `Begin` alone. -/

namespace Sys2Proof.Machine

open Sys2Proof.Safety

/-- The state with `ADDR` written, as `initialize` writes it (R16, R73). -/
def State.withAddress (a : BusAddr) (s : State) : State := { s with addr := a, addrValid := true }

/-! ### Operations that carry `ADDR` along -/

@[simp] theorem withAddress_respond (a : BusAddr) (s : State) (ok : Bool) :
    (s.withAddress a).respond ok = (s.respond ok).withAddress a := rfl

@[simp] theorem withAddress_bufWrite (a : BusAddr) (s : State) (i : Fin 8) (v : Cell) :
    (s.withAddress a).bufWrite i v = (s.bufWrite i v).withAddress a := rfl

@[simp] theorem withAddress_putDigit (a : BusAddr) (s : State) (pos : Operand) (m : Mask) :
    (s.withAddress a).putDigit pos m = (s.putDigit pos m).withAddress a := by
  unfold State.putDigit
  split <;> rfl

@[simp] theorem withAddress_line (a : BusAddr) (s : State) (m : Mask) :
    (s.withAddress a).line m = (s.line m).withAddress a := by
  simp [State.line]

@[simp] theorem withAddress_clearDigitsStep (a : BusAddr) (s : State) :
    (s.withAddress a).clearDigitsStep = s.clearDigitsStep.withAddress a := withAddress_line a s _

@[simp] theorem withAddress_digitStep (a : BusAddr) (s : State) (pos value : Operand) (dot : Bool) :
    (s.withAddress a).digitStep pos value dot = (s.digitStep pos value dot).withAddress a :=
  withAddress_putDigit a s pos _

@[simp] theorem withAddress_dotStep (a : BusAddr) (s : State) (pos : Operand) (dot : Bool) :
    (s.withAddress a).dotStep pos dot = (s.dotStep pos dot).withAddress a := by
  unfold State.dotStep
  split <;> rfl

@[simp] theorem withAddress_signStep (a : BusAddr) (s : State) (free : Nat) :
    (s.withAddress a).signStep free = (s.signStep free).withAddress a := by
  cases free with
  | zero => exact withAddress_dotStep a s 3 true
  | succ p => exact withAddress_putDigit a s _ _

theorem digitLoop_withAddress (a : BusAddr) (base : Nat) (padding : Bool) (free m : Nat) (s : State) :
    digitLoop base padding free m (s.withAddress a) =
      ((digitLoop base padding free m s).1.withAddress a, (digitLoop base padding free m s).2) := by
  induction free generalizing m s with
  | zero => rfl
  | succ p ih =>
    simp only [digitLoop, withAddress_digitStep]
    split
    · exact ih _ _
    · rfl

/-! ### Whole operations -/

/-- States that agree up to `ADDR` still do after the result bit. -/
theorem respond_of_eq_withAddress {a : BusAddr} {t u : State} (ok : Bool) (h : u = t.withAddress a) :
    (.next (u.respond ok) : Host.Outcome State Fault Refusal) = .next ((t.respond ok).withAddress a) := by
  rw [h, withAddress_respond]

theorem execToggleDot_withAddress (a : BusAddr) (pos : Operand) (s : State) :
    NextWith (execToggleDot pos s) fun t => execToggleDot pos (s.withAddress a) = .next (t.withAddress a) := by
  unfold execToggleDot
  split <;> exact ⟨_, rfl, rfl⟩

theorem execPrintNumber_withAddress (a : BusAddr) (number : Num32) (base : Operand) (padding : Bool) (s : State) :
    NextWith (execPrintNumber number base padding s) fun t =>
      execPrintNumber number base padding (s.withAddress a) = .next (t.withAddress a) := by
  rcases execPrintNumber_cases number base padding s with ⟨hbase, h⟩ | ⟨s1, left, free, hbase, hloop, h⟩
  · exact ⟨_, h, by simp [execPrintNumber, hbase]⟩
  · have hloop' : digitLoop base.toNat padding Config.nDigits (magnitude number).toNat
        (s.clearDigitsStep.withAddress a) = (s1.withAddress a, left, free) := by
      rw [digitLoop_withAddress, hloop]
    rcases h with ⟨hleft, h⟩ | ⟨hleft, h⟩
    · exact ⟨_, h, by simp [execPrintNumber, hbase, hloop', hleft]⟩
    · exact ⟨_, h, by cases hsign : isNegative number <;> simp [execPrintNumber, hbase, hloop', hleft, hsign]⟩

theorem execPrintTime_withAddress (a : BusAddr) (first last : Operand) (s : State) :
    NextWith (execPrintTime first last s) fun t =>
      execPrintTime first last (s.withAddress a) = .next (t.withAddress a) := by
  rcases execPrintTime_cases first last s with ⟨hrange, h⟩ | ⟨hrange, h⟩ <;>
    exact ⟨_, h, by simp [execPrintTime, hrange]⟩

/-- R163 item 1: a drawing or printing operation does not read `ADDR`. -/
theorem exec_drawsOnly_withAddress {i : Instr} (hi : drawsOnly i = true) (a : BusAddr) (s : State) :
    NextWith (exec i s) fun t => exec i (s.withAddress a) = .next (t.withAddress a) := by
  cases i with
  | initializeBlock | setDisplayStatus | setBlinkRate | setBrightness | clearDisplay | writeDisplay | writeColon =>
    cases hi
  | drawColon | toggleColon => exact ⟨_, rfl, rfl⟩
  | drawDigit | clearDigit | drawHyphen | drawOver | drawUnder =>
    exact ⟨_, rfl, respond_of_eq_withAddress true (withAddress_putDigit a s _ _)⟩
  | clearDigits | drawLineUpper | drawLineMiddle | drawLineLower | drawLines2 | drawLines3 =>
    exact ⟨_, rfl, respond_of_eq_withAddress true (withAddress_line a s _)⟩
  | drawDot pos dot => exact ⟨_, rfl, respond_of_eq_withAddress true (withAddress_dotStep a s pos dot)⟩
  | toggleDot pos => exact execToggleDot_withAddress a pos s
  | printNumber number base padding => exact execPrintNumber_withAddress a number base padding s
  | printTime first last => exact execPrintTime_withAddress a first last s

/-! ### The events -/

/-- Two transactions of the same bytes differ in the operand of `Begin` alone (R30). -/
theorem map_eraseAddress_append_txEvents (trace : List BusEvent) (a b : BusAddr) (bytes : List Byte) :
    (trace ++ txEvents a bytes).map eraseAddress = (trace ++ txEvents b bytes).map eraseAddress := by
  simp [txEvents, eraseAddress]

@[simp] theorem length_txEvents (a : BusAddr) (bytes : List Byte) : (txEvents a bytes).length = bytes.length + 2 := by
  simp [txEvents]

theorem length_flush_bytes (s : State) : (s.buf.toList.flatMap cellBytes).length = 16 := by
  rw [flush_bytes_written]
  rfl

/-- The shapes an operation emits hold as many events as its row of R173 says. -/
theorem length_emitted_events (s : State) (i : Instr) :
    ((emitted s i).flatMap BusItem.events).length = eventCount i := by
  cases i with
  | writeDisplay =>
    simp only [emitted, BusItem.events, eventCount, List.flatMap_singleton, length_txEvents, List.length_cons,
      length_flush_bytes]
  | _ => rfl

end Sys2Proof.Machine
end

section
/-! SUPPORT. The statements about reset and hazards (spec/70_reset_and_hazards.md). -/

namespace Sys2Proof.Machine

open Sys2Proof.Safety

/-- Settles O37, from the shapes each operation appends to the trace. -/
theorem eventCountsPerOperation : Obligations.EventCountsPerOperation := by
  refine fun i s => (exec_trace i s).mono fun t htrace => ?_
  rw [htrace, List.length_append, length_emitted_events]

/-- Settles O42: a drawing or printing operation carries `ADDR` along, `initializeBlock` overwrites it, and the others
only put it in one `Begin`. -/
theorem registersDefinedBeforeInitialize : Obligations.RegistersDefinedBeforeInitialize := by
  intro i s address
  by_cases hd : drawsOnly i = true
  · obtain ⟨t, ht, hu⟩ := exec_drawsOnly_withAddress hd address s
    exact ⟨t, ht, _, hu, rfl, rfl, rfl, rfl, rfl, rfl, fun _ => rfl⟩
  · cases i with
    | initializeBlock => exact ⟨_, rfl, _, rfl, rfl, rfl, rfl, rfl, rfl, rfl, fun _ => rfl⟩
    | setDisplayStatus | setBlinkRate | setBrightness | clearDisplay | writeDisplay | writeColon =>
      exact ⟨_, rfl, _, rfl, rfl, rfl, rfl, rfl, rfl, map_eraseAddress_append_txEvents s.trace _ _ _, nofun⟩
    | _ => exact absurd rfl hd

end Sys2Proof.Machine
end

section
/-! SUPPORT. The request words that the test vectors write out (spec/95_test_vectors.md section 2.7). -/

namespace Sys2Proof

/-- Settles O4: whatever stands in `rsv` and in the unused fields, the used fields of each word are those of the word
that the named operation encodes to. -/
theorem writtenOutWordsDecode : Obligations.WrittenOutWordsDecode := by
  unfold Obligations.WrittenOutWordsDecode
  simp only [decodeRequest_eq_ok_iff]
  and_intros <;> rfl

end Sys2Proof
end
